-- ==== Sys2Proof/Word.lean ====
section
/-! DEFINITION. The LS-8's one word: the byte (spec/10_state.md R20, R23; spec/00_scope.md R6).
Registers, opcodes, operands and memory cells are 8 bits wide and unsigned. -/

namespace Sys2Proof

/-- A byte: bit 0 is the least significant bit, bit 7 the most significant (00_scope.md R6). -/
abbrev Byte := BitVec 8

end Sys2Proof
end

