-- ==== Sys2Proof/Config.lean ====
section
/-! DEFINITION. The parameters of the LS-8 core (spec/00_scope.md R5).
The spec makes them arguments of the model; the model carries them in `State.cfg`, which nothing writes
(DESIGN CHOICE, notes/assumptions/1.md). -/

namespace Sys2Proof

/-- OVERFLOW_POLICY: what ADD, SUB, MUL, INC and DEC do with a result outside 0..255 (41_alu.md R131). -/
inductive OverflowPolicy where
  | wrap
  | saturate
  | fault
deriving DecidableEq, Repr

/-- What reading a register that nothing has written since reset does.
`carryOn`: the register's value is used, as "a real implementation holds some value there and carries on"
(10_state.md R24). `fault`: the spec's model fault UnwrittenRegisterRead (60_exceptions.md R209).
DESIGN CHOICE: a parameter of the model's own, notes/assumptions/3.md. -/
inductive UnwrittenPolicy where
  | carryOn
  | fault
deriving DecidableEq, Repr

/-- The parameters of 00_scope.md R5, each with the default that rule gives, and `unwrittenReads`
(notes/assumptions/3.md). -/
structure Config where
  /-- MEM_SIZE: the number of bytes of memory (20_memory.md R50). -/
  memSize : Nat := 256
  /-- RESET_PC: where the first instruction stands after reset (10_state.md R47). -/
  resetPc : Nat := 0
  /-- OVERFLOW_POLICY (41_alu.md R131). -/
  overflow : OverflowPolicy := .wrap
  /-- AND_OPCODE: AND's opcode byte, absent by default (30_encoding.md R75). -/
  andOpcode : Option Byte := none
  /-- STACK_LIMIT: a push is refused at SP <= STACK_LIMIT (43_stack_and_calls.md R180). -/
  stackLimit : Nat := 0
  /-- The model's own parameter (notes/assumptions/3.md). -/
  unwrittenReads : UnwrittenPolicy := .carryOn
deriving DecidableEq, Repr

/-- The default configuration of 00_scope.md R5. -/
def Config.default : Config := {}

/-- The values of MEM_SIZE: the powers of two from 1 to 256 (20_memory.md R50). -/
def Config.memSizes : List Nat := [1, 2, 4, 8, 16, 32, 64, 128, 256]

/-- The bytes AND_OPCODE may be: unassigned, with bits 7:6 = 0b10 (30_encoding.md R75). -/
def Config.andOpcodeAllowed (k : Byte) : Bool :=
  decide (0x80 ≤ k) && decide (k ≤ 0xBF) &&
    ! [0x99, 0xA0, 0xA9, 0xAA, 0xAB, 0xAC, 0xB1, 0xB2, 0xB3].contains k

/-- The configurations the spec admits: every parameter in its domain (00_scope.md R5).
The model runs outside them too, and claims nothing there (DESIGN CHOICE, notes/assumptions/11.md). -/
abbrev Config.Valid (c : Config) : Prop :=
  c.memSize ∈ Config.memSizes ∧ c.resetPc < c.memSize ∧
    c.andOpcode.all Config.andOpcodeAllowed = true ∧ c.stackLimit < 0xF4

end Sys2Proof
end

