-- ==== Sys2Proof/Syntax.lean ====
section
/-! DEFINITION. The instructions of the LS-8: one constructor per row of spec/opcode_table.json, in its order
(spec/30_encoding.md R74).
An operand is the raw operand byte (30_encoding.md R71): `a`, `b` register bytes, `i` an immediate. A register
byte over 7 is no ill-typed term but an instruction that raises InvalidRegisterIndex (R72), so the syntax keeps it. -/

namespace Sys2Proof

/-- An instruction with its operand bytes, in increasing address order (30_encoding.md R71). -/
inductive Instr where
  | hlt
  | call (a : Byte)
  | ret
  | dec (a : Byte)
  | inc (a : Byte)
  | not (a : Byte)
  | ldi (a i : Byte)
  | prn (a : Byte)
  | push (a : Byte)
  | pop (a : Byte)
  | add (a b : Byte)
  | and (a b : Byte)
  | cmp (a b : Byte)
  | div (a b : Byte)
  | mod (a b : Byte)
  | mul (a b : Byte)
  | or (a b : Byte)
  | sub (a b : Byte)
  | xor (a b : Byte)
  | nop
deriving DecidableEq, Repr

end Sys2Proof
end

