-- ==== Sys2Proof/Decode.lean ====
section
/-! DEFINITION. The decoder (spec/30_encoding.md R70-R78, R82; spec/40_fetch_decode_execute.md R103, R104, R111)
and, after it, the encoder. The decoder is total on any bytes and rejects by name. -/

namespace Sys2Proof

/-- The operations the dispatch table selects: one per row of spec/opcode_table.json (30_encoding.md R74). -/
inductive Operation where
  | hlt | call | ret | dec | inc | not | ldi | prn | push | pop
  | add | and | cmp | div | mod | mul | or | sub | xor | nop
deriving DecidableEq, Repr

/-- The opcode table of 30_encoding.md R74. AND has no row: its opcode is AND_OPCODE (R75). -/
def opcodeTable : List (Byte × Operation) :=
  [(0x01, .hlt), (0x48, .call), (0x09, .ret), (0x79, .dec), (0x78, .inc), (0x70, .not), (0x99, .ldi),
   (0x43, .prn), (0x4D, .push), (0x4C, .pop), (0xB3, .add), (0xA0, .cmp), (0xAB, .div), (0xAC, .mod),
   (0xAA, .mul), (0xB1, .or), (0xA9, .sub), (0xB2, .xor), (0x00, .nop)]

/-- Dispatch: the operation an opcode byte selects, or unknown (40_fetch_decode_execute.md R111).
The key is the whole byte (30_encoding.md R76); 0xB3 is ADD (R75). -/
def dispatch (c : Config) (op : Byte) : Option Operation :=
  match opcodeTable.lookup op with
  | some h => some h
  | none => if c.andOpcode = some op then some .and else none

/-- The operand count an opcode declares, `op[7:6] = (op >> 6) & 0b11` (30_encoding.md R70). -/
def opcount (op : Byte) : Nat := ((op >>> 6) &&& 0b11).toNat

/-- Why bytes are no instruction: the decoder's rejections, by name. -/
inductive DecodeError where
  /-- The byte at offset `k` from the opcode, which the instruction needs, is not there. -/
  | missingByte (k : Nat)
  /-- No operation has this opcode (30_encoding.md R77). -/
  | unknownOpcode (op : Byte)
deriving DecidableEq, Repr

/-- The instruction an operation makes of the two operand bytes: "handlers with fewer parameters simply ignore
the extras" (40_fetch_decode_execute.md R104, R114; formats of 30_encoding.md R71). -/
def Operation.instr : Operation → Byte → Byte → Instr
  | .hlt, _, _ => .hlt
  | .call, a, _ => .call a
  | .ret, _, _ => .ret
  | .dec, a, _ => .dec a
  | .inc, a, _ => .inc a
  | .not, a, _ => .not a
  | .ldi, a, i => .ldi a i
  | .prn, a, _ => .prn a
  | .push, a, _ => .push a
  | .pop, a, _ => .pop a
  | .add, a, b => .add a b
  | .and, a, b => .and a b
  | .cmp, a, b => .cmp a b
  | .div, a, b => .div a b
  | .mod, a, b => .mod a b
  | .mul, a, b => .mul a b
  | .or, a, b => .or a b
  | .sub, a, b => .sub a b
  | .xor, a, b => .xor a b
  | .nop, _, _ => .nop

/-- Operand fetch: the two operand bytes as far as they are there, checked as declared, A before B
(40_fetch_decode_execute.md R104). -/
def decodeOperands (h : Operation) (n : Nat) (opA opB : Option Byte) : Except DecodeError Instr :=
  if 1 ≤ n ∧ opA = none then .error (.missingByte 1)
  else if 2 ≤ n ∧ opB = none then .error (.missingByte 2)
  else .ok (h.instr (opA.getD 0) (opB.getD 0))

/-- Decode the instruction at the head of a list of bytes, and return it with the bytes after it. -/
def decode (c : Config) : List Byte → Except DecodeError (Instr × List Byte)
  | [] => .error (.missingByte 0)
  | op :: rest =>
    match dispatch c op with
    | none => .error (.unknownOpcode op)
    | some h =>
      match decodeOperands h (opcount op) rest[0]? rest[1]? with
      | .error e => .error e
      | .ok i => .ok (i, rest.drop (opcount op))

/-! ## The encoder -/

/-- The operation of an instruction. -/
def Instr.operation : Instr → Operation
  | .hlt => .hlt
  | .call _ => .call
  | .ret => .ret
  | .dec _ => .dec
  | .inc _ => .inc
  | .not _ => .not
  | .ldi _ _ => .ldi
  | .prn _ => .prn
  | .push _ => .push
  | .pop _ => .pop
  | .add _ _ => .add
  | .and _ _ => .and
  | .cmp _ _ => .cmp
  | .div _ _ => .div
  | .mod _ _ => .mod
  | .mul _ _ => .mul
  | .or _ _ => .or
  | .sub _ _ => .sub
  | .xor _ _ => .xor
  | .nop => .nop

/-- The operand bytes of an instruction, in increasing address order (30_encoding.md R71). -/
def Instr.operands : Instr → List Byte
  | .hlt => []
  | .call a => [a]
  | .ret => []
  | .dec a => [a]
  | .inc a => [a]
  | .not a => [a]
  | .ldi a i => [a, i]
  | .prn a => [a]
  | .push a => [a]
  | .pop a => [a]
  | .add a b => [a, b]
  | .and a b => [a, b]
  | .cmp a b => [a, b]
  | .div a b => [a, b]
  | .mod a b => [a, b]
  | .mul a b => [a, b]
  | .or a b => [a, b]
  | .sub a b => [a, b]
  | .xor a b => [a, b]
  | .nop => []

/-- An instruction's length in bytes: its operand count plus 1 (30_encoding.md R70, R71). -/
def Instr.length (i : Instr) : Nat := i.operands.length + 1

/-- The opcode byte of an operation; none for AND while AND_OPCODE is absent (30_encoding.md R74, R75). -/
def Operation.opcode (c : Config) (h : Operation) : Option Byte :=
  if h = .and then c.andOpcode else (opcodeTable.find? (fun row => row.2 == h)).map Prod.fst

/-- The bytes of an instruction: opcode, then operands (30_encoding.md R71). -/
def encode (c : Config) (i : Instr) : Option (List Byte) :=
  (i.operation.opcode c).map (· :: i.operands)

/-! ## The host's words -/

/-- The bytes of a word numbered as spec/opcode_table.json numbers it: the first byte is bits 7..0, the second
15..8, the third 23..16; bits from `nbits` up are 0. Three bytes: the longest instruction (30_encoding.md R70). -/
def tableBytes (nbits w : Nat) : List Byte :=
  let v := w % 2 ^ nbits
  [BitVec.ofNat 8 v, BitVec.ofNat 8 (v / 2 ^ 8), BitVec.ofNat 8 (v / 2 ^ 16)]

/-- The instruction the decoder reads from a word of the opcode table, in the default configuration
(notes/assumptions/13.md). -/
def decodeTableWord (nbits w : Nat) : Option Instr :=
  match decode Config.default (tableBytes nbits w) with
  | .ok (i, _) => some i
  | .error _ => none

end Sys2Proof
end

