-- ==== Sys2Proof/Machine/State.lean ====
section
/-! DEFINITION. The state of the LS-8 core (spec/10_state.md R20-R48) and its reset value (R47). -/

namespace Sys2Proof.Machine

/-- The run state (10_state.md R36). HALTED and FAULTED are terminal: only reset leaves them. -/
inductive RunState where
  | running
  | halted
  | faulted
deriving DecidableEq, Repr

/-- The flags register FL: E is bit 0, G bit 1, L bit 2 (10_state.md R32). Bits 7:3 are not implemented and
read as 0: `Flags.toByte` is the 8-bit view. -/
structure Flags where
  e : Bool
  g : Bool
  l : Bool
deriving DecidableEq, Repr

/-- The fault kinds with the info each records (60_exceptions.md R201). These are the LS-8's own faults: taking
one is a next state (`State.takeFault`), not an `Outcome.fault`. -/
inductive FaultCause where
  | unknownOpcode (op : Byte)
  | divisionByZero (b : Byte)
  | addressOutOfBounds (addr : Nat)
  | stackOverflow (sp : Byte)
  | stackUnderflow (sp : Byte)
  | invalidRegisterIndex (operand : Byte)
  | arithmeticOverflow (result : Int)
  /-- The spec's model fault (60_exceptions.md R209), taken only under `UnwrittenPolicy.fault`
  (notes/assumptions/3.md). -/
  | unwrittenRegisterRead (r : Byte)
deriving DecidableEq, Repr

/-- The fault record: the kind with its info, and the address of the faulting instruction's opcode
(10_state.md R37; 60_exceptions.md R201, R212). -/
structure FaultRecord where
  cause : FaultCause
  pc : Nat
deriving DecidableEq, Repr

/-- Memory: (address, byte) pairs, addresses strictly rising, no byte 0 listed. An unlisted address reads as 0:
"contents default to zero" (20_memory.md R52; notes/assumptions/9.md). -/
abbrev Memory := List Host.Cell

/-- The reasons a step stops outside the state. There are none: every fault of the LS-8 has an entry the spec
describes (60_exceptions.md R212), so it is a next state with `run = .faulted` (notes/assumptions/7.md). Nothing
raises this type; safe. -/
inductive Fault
deriving DecidableEq, Repr

/-- The reasons an instruction has no meaning. -/
inductive Refusal where
  /-- Raised by exec's refused arms: the instruction has no meaning yet. No arm of this model is refused; safe. -/
  | notModelled (mnemonic : String)
deriving DecidableEq, Repr

/-- The complete state of the core and its memory (10_state.md R48). -/
structure State where
  /-- The registers R0-R7; R7 is SP (10_state.md R20, R21). -/
  regs : Vector Byte 8
  /-- Which registers an instruction or reset has written (10_state.md R24). -/
  written : Vector Bool 8
  /-- The program counter: at least 9 bits, no wrap; "a model may use an unbounded natural number"
  (10_state.md R26). -/
  pc : Nat
  /-- IR, the most recently fetched opcode byte (10_state.md R31). -/
  ir : Byte
  /-- FL (10_state.md R32). -/
  fl : Flags
  /-- The run state (10_state.md R36). -/
  run : RunState
  /-- The fault record, empty until the core enters FAULTED (10_state.md R37). -/
  fault : Option FaultRecord
  /-- The output sequence, oldest first (10_state.md R38). -/
  out : List Byte
  /-- Memory, outside the core but reached only by it during a run (20_memory.md R50, R60). -/
  mem : Memory
  /-- The parameters of 00_scope.md R5: the model's own field, which nothing writes (notes/assumptions/1.md). -/
  cfg : Config
deriving DecidableEq, Repr

/-- The state after reset of 10_state.md R47 in the default configuration, with memory as built: all 0, no program
loaded (20_memory.md R52). The spec gives no value for R0-R6, IR and FL: 0 is a DESIGN CHOICE
(notes/assumptions/2.md, 4.md, 5.md). -/
def State.reset : State where
  regs := #v[0, 0, 0, 0, 0, 0, 0, 0xF4]
  written := #v[false, false, false, false, false, false, false, true]
  pc := 0
  ir := 0
  fl := ⟨false, false, false⟩
  run := .running
  fault := none
  out := []
  mem := []
  cfg := Config.default

end Sys2Proof.Machine
end

