-- ==== Sys2Proof/Machine/Ops.lean ====
section
/-! DEFINITION. The named operations over memory and registers, taking a fault, reset (the only way out of a
fault), and the stack primitives (spec/20_memory.md R51; spec/60_exceptions.md R212, R213; spec/70_reset_and_hazards.md
R230; spec/43_stack_and_calls.md R180, R181). -/

namespace Sys2Proof.Machine

/-! ## Memory -/

/-- What an unlisted address reads as: "contents default to zero" (20_memory.md R52; notes/assumptions/9.md). -/
abbrev Memory.unlisted : Byte := 0

/-- The byte at an address (20_memory.md R52). -/
def Memory.read : Memory → Nat → Byte
  | [], _ => Memory.unlisted
  | (b, w) :: m, a => if a = b then w else Memory.read m a

/-- Set one byte, keeping the canonical form: writing what an unlisted address reads as removes the entry. -/
def Memory.write : Memory → Nat → Byte → Memory
  | [], a, v => if v = Memory.unlisted then [] else [(a, v)]
  | (b, w) :: m, a, v =>
    if a < b then (if v = Memory.unlisted then (b, w) :: m else (a, v) :: (b, w) :: m)
    else if a = b then (if v = Memory.unlisted then m else (a, v) :: m)
    else (b, w) :: Memory.write m a v

/-- The canonical form: addresses strictly rising, no entry equal to what an unlisted address reads as. -/
abbrev Memory.wf (m : Memory) : Prop :=
  m.Pairwise (fun p q => p.1 < q.1) ∧ ∀ p ∈ m, p.2 ≠ Memory.unlisted

/-- Every listed address is below `n`: with `n = MEM_SIZE`, memory holds no byte outside the address space
(20_memory.md R50). -/
abbrev Memory.within (n : Nat) (m : Memory) : Prop := ∀ p ∈ m, p.1 < n

/-- The byte at an address, without the bounds check: what a host that looks at memory sees. -/
def State.byteAt (s : State) (addr : Nat) : Byte := Memory.read s.mem addr

/-- MemRead(addr, 1) (20_memory.md R51). -/
def State.memRead (s : State) (addr : Nat) : Except FaultCause Byte :=
  if addr ≥ s.cfg.memSize then .error (.addressOutOfBounds addr) else .ok (s.byteAt addr)

/-- The state with one byte of memory set. -/
def State.setByte (s : State) (addr : Nat) (v : Byte) : State :=
  { s with mem := Memory.write s.mem addr v }

/-- MemWrite(addr, 1, v) (20_memory.md R51). -/
def State.memWrite (s : State) (addr : Nat) (v : Byte) : Except FaultCause State :=
  if addr ≥ s.cfg.memSize then .error (.addressOutOfBounds addr) else .ok (s.setByte addr v)

/-! ## Registers -/

/-- x[a]: the register a register byte names (00_scope.md R7). A byte over 7 names none: REGCHECK has stopped the
instruction before any handler reads it (40_fetch_decode_execute.md R105; notes/assumptions/14.md). -/
def State.x (s : State) (a : Byte) : Byte := s.regs[a.toNat]?.getD 0

/-- x[a] <- v. The register counts as written from here on (10_state.md R24). A byte over 7 names no register and
writes nothing (notes/assumptions/14.md). -/
def State.setX (s : State) (a v : Byte) : State :=
  { s with regs := s.regs.setIfInBounds a.toNat v, written := s.written.setIfInBounds a.toNat true }

/-- Whether reset or an instruction has written the register (10_state.md R24). -/
def State.isWritten (s : State) (a : Byte) : Bool := s.written[a.toNat]?.getD false

/-- SP is another name for x[7] (10_state.md R21). -/
abbrev State.sp (s : State) : Byte := s.x 7

/-! ## Taking a fault, and reset -/

/-- Fault entry (60_exceptions.md R212): the record is set to the cause and the pc of the faulting instruction, the
run state becomes FAULTED, and nothing else changes (40_fetch_decode_execute.md R108). -/
def State.takeFault (s : State) (c : FaultCause) : State :=
  { s with run := .faulted, fault := some ⟨c, s.pc⟩ }

/-- The values reset leaves unspecified: R0-R6, IR and FL's E, G and L (10_state.md R47). -/
structure ResetDraw where
  regs : Vector Byte 7
  ir : Byte
  fl : Flags
deriving DecidableEq, Repr

/-- The draw of `State.reset`: 0 throughout (DESIGN CHOICE, notes/assumptions/2.md, 4.md, 5.md). -/
def ResetDraw.zero : ResetDraw := ⟨Vector.replicate 7 0, 0, ⟨false, false, false⟩⟩

/-- The reset input (10_state.md R45, R47; 70_reset_and_hazards.md R230): every piece of core state takes its reset
value, the unspecified ones those of the draw; memory and the parameters are not changed. There is no return from a
fault (60_exceptions.md R213): this is the only way out of FAULTED and of HALTED. -/
def State.coreReset (d : ResetDraw) (s : State) : State :=
  { s with
    regs := d.regs.push 0xF4
    written := #v[false, false, false, false, false, false, false, true]
    pc := s.cfg.resetPc
    ir := d.ir
    fl := d.fl
    run := .running
    fault := none
    out := [] }

/-! ## The stack primitives -/

/-- STACK_TOP, the SP of the empty stack (43_stack_and_calls.md; 10_state.md R47). -/
def stackTop : Nat := 0xF4

/-- The push primitive (43_stack_and_calls.md R180). The value is evaluated after SP has been decremented. -/
def push (value : State → Byte) (s : State) : Except FaultCause State :=
  if s.sp.toNat ≤ s.cfg.stackLimit then .error (.stackOverflow s.sp)
  else if s.sp.toNat - 1 ≥ s.cfg.memSize then .error (.addressOutOfBounds (s.sp.toNat - 1))
  else
    let s1 := s.setX 7 (s.sp - 1)
    s1.memWrite (s.sp.toNat - 1) (value s1)

/-- The pop primitive (43_stack_and_calls.md R181): the byte popped and the state with SP incremented. -/
def pop (s : State) : Except FaultCause (Byte × State) :=
  if s.sp.toNat ≥ stackTop then .error (.stackUnderflow s.sp)
  else if s.sp.toNat ≥ s.cfg.memSize then .error (.addressOutOfBounds s.sp.toNat)
  else
    match s.memRead s.sp.toNat with
    | .error c => .error c
    | .ok v => .ok (v, s.setX 7 (s.sp + 1))

/-! ## Handlers and the advance -/

/-- How a handler ends (40_fetch_decode_execute.md R106). -/
inductive Handled where
  /-- `return next`: the sequential advance. -/
  | next (s : State)
  /-- `return jump(t)`: the next pc is `t`; only CALL and RET. -/
  | jump (s : State) (t : Byte)
  /-- `halt`: HLT only. -/
  | halt (s : State)
  /-- `raise Fault(...)`. -/
  | raise (c : FaultCause)

/-- ADVANCE (40_fetch_decode_execute.md R107) after an instruction of `n` operand bytes that began in `s`; a raised
fault is taken in `s`, so a faulting instruction has written nothing (R108). -/
def advance (n : Nat) (s : State) : Handled → State
  | .next s' => { s' with pc := s.pc + n + 1 }
  | .jump s' t => { s' with pc := t.toNat }
  | .halt s' => { s' with pc := s.pc + n + 1, run := .halted }
  | .raise c => s.takeFault c

end Sys2Proof.Machine
end

