-- ==== Sys2Proof/Machine/Boot.lean ====
section
/-! DEFINITION. The loader and the boot order (spec/20_memory.md R52; spec/70_reset_and_hazards.md R230-R232). The
loader stands outside the core and writes memory only before the first step (R233; notes/assumptions/12.md). -/

namespace Sys2Proof.Machine

/-- The program loader: bytes written from an address up (20_memory.md R52; 70_reset_and_hazards.md R232). The spec does
not say what becomes of a byte at or above MEM_SIZE: it is dropped (DESIGN CHOICE, notes/assumptions/18.md). -/
def State.load (s : State) (addr : Nat) : List Byte → State
  | [] => s
  | v :: vs => State.load (if addr < s.cfg.memSize then s.setByte addr v else s) (addr + 1) vs

/-- Memory built with MEM_SIZE bytes, all 0 (70_reset_and_hazards.md R232 step 1). -/
def State.build (c : Config) : State := { State.reset with cfg := c, mem := [] }

/-- The boot order of 70_reset_and_hazards.md R232: build memory, load the program with its first opcode at
RESET_PC, reset. The first `step` follows. 20_memory.md R57 leaves the place of the other program bytes to the loader and
the platform: here they follow the first one upward, and every byte below RESET_PC stays 0 (DESIGN CHOICE,
notes/assumptions/19.md). -/
def boot (c : Config) (d : ResetDraw) (program : List Byte) : State :=
  ((State.build c).load c.resetPc program).coreReset d

end Sys2Proof.Machine
end

