-- ==== Sys2Proof/Machine/Flags.lean ====
section
/-! DEFINITION. The flags register and the results the ALU fits into a register (spec/10_state.md R32, R33;
spec/41_alu.md R131, R132, R144). No instruction but CMP writes a flag; there is no carry, overflow, zero or sign
flag. -/

namespace Sys2Proof.Machine

/-- FL as the 8-bit register of 10_state.md R32: E is bit 0, G bit 1, L bit 2, bits 7:3 read as 0. -/
def Flags.toByte (f : Flags) : Byte :=
  BitVec.ofNat 8 (f.e.toNat + 2 * f.g.toNat + 4 * f.l.toNat)

/-- FL.E <- e; FL.G, FL.L and bits 7:3 are unchanged (10_state.md R33; 41_alu.md R144). -/
def State.setEqual (s : State) (e : Bool) : State :=
  { s with fl := { s.fl with e := e } }

/-- `fit(v)`: OVERFLOW_POLICY applied to the exact integer result of ADD, SUB, MUL, INC or DEC (41_alu.md R131). -/
def fit (p : OverflowPolicy) (v : Int) : Except FaultCause Byte :=
  match p with
  | .wrap => .ok (BitVec.ofInt 8 (v % 256))
  | .saturate => .ok (BitVec.ofInt 8 (min (max v 0) 255))
  | .fault => if v < 0 ∨ v > 255 then .error (.arithmeticOverflow v) else .ok (BitVec.ofInt 8 v)

end Sys2Proof.Machine
end

