-- ==== Sys2Proof/Machine/Operands.lean ====
section
/-! DEFINITION. The operand forms: REGCHECK and what runs around every handler (spec/40_fetch_decode_execute.md R105,
R112). -/

namespace Sys2Proof.Machine

/-- The operand bytes checked as register indices, in the order checked (the regOperands column of
40_fetch_decode_execute.md R112). -/
def regOperands : Instr → List Byte
  | .hlt => []
  | .call a => [a]
  | .ret => []
  | .dec a => [a]
  | .inc a => [a]
  | .not a => [a]
  | .ldi a _ => [a]
  | .prn a => [a]
  | .push a => [a]
  | .pop a => [a]
  | .add a b => [a, b]
  | .and a b => [a, b]
  | .cmp a b => [a, b]
  | .div a b => [a, b]
  | .mod a b => [a, b]
  | .mul a b => [a, b]
  | .or a b => [a, b]
  | .sub a b => [a, b]
  | .xor a b => [a, b]
  | .nop => []

/-- The registers the instruction reads, in the order checked (the readRegs column of
40_fetch_decode_execute.md R112). -/
def readRegs : Instr → List Byte
  | .hlt => []
  | .call a => [7, a]
  | .ret => [7]
  | .dec a => [a]
  | .inc a => [a]
  | .not a => [a]
  | .ldi _ _ => []
  | .prn a => [a]
  | .push a => [7, a]
  | .pop _ => [7]
  | .add a b => [a, b]
  | .and a b => [a, b]
  | .cmp a b => [a, b]
  | .div a b => [a, b]
  | .mod a b => [a, b]
  | .mul a b => [a, b]
  | .or a b => [a, b]
  | .sub a b => [a, b]
  | .xor a b => [a, b]
  | .nop => []

/-- The byte names no register: "Bits are not masked" (30_encoding.md R72). -/
def invalidIndex (b : Byte) : Bool := decide (7 < b.toNat)

/-- Reading the register is the model fault UnwrittenRegisterRead (60_exceptions.md R209): only under
`UnwrittenPolicy.fault` (notes/assumptions/3.md). -/
def unreadable (s : State) (r : Byte) : Bool := s.cfg.unwrittenReads == .fault && !s.isWritten r

/-- REGCHECK (40_fetch_decode_execute.md R105): the first fault it raises, or none. -/
def regCheck (i : Instr) (s : State) : Option FaultCause :=
  match (regOperands i).find? invalidIndex with
  | some b => some (.invalidRegisterIndex b)
  | none =>
    match (readRegs i).find? (unreadable s) with
    | some r => some (.unwrittenRegisterRead r)
    | none => none

/-- REGCHECK, EXECUTE with the given handler, ADVANCE (40_fetch_decode_execute.md R105-R108, R110). -/
def perform (i : Instr) (handler : State → Handled) (s : State) : Host.Outcome State Fault Refusal :=
  match regCheck i s with
  | some c => .next (s.takeFault c)
  | none => .next (advance i.operands.length s (handler s))

end Sys2Proof.Machine
end

