-- ==== Sys2Proof/Machine/Alu.lean ====
section
/-! DEFINITION. The meanings of the ALU instructions (spec/41_alu.md). A binary operation reads x[a] and x[b] and
writes x[a], a unary one reads and writes x[a], CMP writes FL.E; all end with `return next` (R130). -/

namespace Sys2Proof.Machine

/-- `x[a] <- fit(v); return next` (41_alu.md R131). -/
def writeFit (a : Byte) (v : Int) (s : State) : Handled :=
  match fit s.cfg.overflow v with
  | .error c => .raise c
  | .ok r => .next (s.setX a r)

/-- The value of x[a] as the integer the ALU computes with (41_alu.md R145). -/
def State.xInt (s : State) (a : Byte) : Int := (s.x a).toNat

/-- DEC, `x[a] <- fit(x[a] - 1)` (41_alu.md R139). -/
def execDec (a : Byte) (s : State) : Host.Outcome State Fault Refusal :=
  perform (.dec a) (fun s => writeFit a (s.xInt a - 1) s) s

/-- INC, `x[a] <- fit(x[a] + 1)` (41_alu.md R138). -/
def execInc (a : Byte) (s : State) : Host.Outcome State Fault Refusal :=
  perform (.inc a) (fun s => writeFit a (s.xInt a + 1) s) s

/-- NOT, `x[a] <- 0xFF XOR x[a]` (41_alu.md R137). -/
def execNot (a : Byte) (s : State) : Host.Outcome State Fault Refusal :=
  perform (.not a) (fun s => .next (s.setX a (0xFF ^^^ s.x a))) s

/-- ADD, `x[a] <- fit(x[a] + x[b])` (41_alu.md R133). -/
def execAdd (a b : Byte) (s : State) : Host.Outcome State Fault Refusal :=
  perform (.add a b) (fun s => writeFit a (s.xInt a + s.xInt b) s) s

/-- AND, bitwise (41_alu.md R134). -/
def execAnd (a b : Byte) (s : State) : Host.Outcome State Fault Refusal :=
  perform (.and a b) (fun s => .next (s.setX a (s.x a &&& s.x b))) s

/-- CMP, `FL.E <- (x[a] = x[b])` (41_alu.md R144). -/
def execCmp (a b : Byte) (s : State) : Host.Outcome State Fault Refusal :=
  perform (.cmp a b) (fun s => .next (s.setEqual (s.x a == s.x b))) s

/-- DIV, the truncated unsigned quotient; DivisionByZero(b) on a zero divisor (41_alu.md R142). -/
def execDiv (a b : Byte) (s : State) : Host.Outcome State Fault Refusal :=
  perform (.div a b) (fun s =>
    if s.x b = 0 then .raise (.divisionByZero b)
    else .next (s.setX a (BitVec.ofNat 8 ((s.x a).toNat / (s.x b).toNat)))) s

/-- MOD, the unsigned remainder; DivisionByZero(b) on a zero divisor (41_alu.md R143). -/
def execMod (a b : Byte) (s : State) : Host.Outcome State Fault Refusal :=
  perform (.mod a b) (fun s =>
    if s.x b = 0 then .raise (.divisionByZero b)
    else .next (s.setX a (BitVec.ofNat 8 ((s.x a).toNat % (s.x b).toNat)))) s

/-- MUL, `x[a] <- fit(x[a] * x[b])` (41_alu.md R140). -/
def execMul (a b : Byte) (s : State) : Host.Outcome State Fault Refusal :=
  perform (.mul a b) (fun s => writeFit a (s.xInt a * s.xInt b) s) s

/-- OR, bitwise (41_alu.md R135). -/
def execOr (a b : Byte) (s : State) : Host.Outcome State Fault Refusal :=
  perform (.or a b) (fun s => .next (s.setX a (s.x a ||| s.x b))) s

/-- SUB, `x[a] <- fit(x[a] - x[b])` (41_alu.md R141). -/
def execSub (a b : Byte) (s : State) : Host.Outcome State Fault Refusal :=
  perform (.sub a b) (fun s => writeFit a (s.xInt a - s.xInt b) s) s

/-- XOR, bitwise (41_alu.md R136). -/
def execXor (a b : Byte) (s : State) : Host.Outcome State Fault Refusal :=
  perform (.xor a b) (fun s => .next (s.setX a (s.x a ^^^ s.x b))) s

end Sys2Proof.Machine
end

