-- ==== Sys2Proof/Machine/Handlers.lean ====
section
/-! DEFINITION. The meanings of the register load, output and control instructions (spec/42_handlers.md). -/

namespace Sys2Proof.Machine

/-- `emit(v)`: append v to the output (42_handlers.md R171). -/
def State.emit (s : State) (v : Byte) : State := { s with out := s.out ++ [v] }

/-- HLT: the run ends normally; pc is one past the HLT byte (42_handlers.md R172; 40_fetch_decode_execute.md R107). -/
def execHlt (s : State) : Host.Outcome State Fault Refusal :=
  perform .hlt (fun s => .halt s) s

/-- LDI, `x[a] <- i` (42_handlers.md R170). -/
def execLdi (a i : Byte) (s : State) : Host.Outcome State Fault Refusal :=
  perform (.ldi a i) (fun s => .next (s.setX a i)) s

/-- PRN, `emit(x[a])` (42_handlers.md R171). -/
def execPrn (a : Byte) (s : State) : Host.Outcome State Fault Refusal :=
  perform (.prn a) (fun s => .next (s.emit (s.x a))) s

/-- NOP: no effect (42_handlers.md R173). -/
def execNop (s : State) : Host.Outcome State Fault Refusal :=
  perform .nop (fun s => .next s) s

end Sys2Proof.Machine
end

