-- ==== Sys2Proof/Machine/Stack.lean ====
section
/-! DEFINITION. The meanings of the stack and control transfer instructions (spec/43_stack_and_calls.md). -/

namespace Sys2Proof.Machine

/-- CALL: push pc + 2, then jump to x[a], read after the push (43_stack_and_calls.md R184). -/
def execCall (a : Byte) (s : State) : Host.Outcome State Fault Refusal :=
  perform (.call a) (fun s =>
    if s.pc + 2 ≥ s.cfg.memSize then .raise (.addressOutOfBounds (s.pc + 2))
    else
      match push (fun _ => BitVec.ofNat 8 (s.pc + 2)) s with
      | .error c => .raise c
      | .ok s' => .jump s' (s'.x a)) s

/-- RET: jump to the byte popped (43_stack_and_calls.md R185). -/
def execRet (s : State) : Host.Outcome State Fault Refusal :=
  perform .ret (fun s =>
    match pop s with
    | .error c => .raise c
    | .ok (t, s') => .jump s' t) s

/-- PUSH: push x[a], evaluated after the decrement (43_stack_and_calls.md R182). -/
def execPush (a : Byte) (s : State) : Host.Outcome State Fault Refusal :=
  perform (.push a) (fun s =>
    match push (fun s1 => s1.x a) s with
    | .error c => .raise c
    | .ok s' => .next s') s

/-- POP: x[a] <- the byte popped, after SP's increment (43_stack_and_calls.md R183). -/
def execPop (a : Byte) (s : State) : Host.Outcome State Fault Refusal :=
  perform (.pop a) (fun s =>
    match pop s with
    | .error c => .raise c
    | .ok (v, s') => .next (s'.setX a v)) s

end Sys2Proof.Machine
end

