-- ==== Sys2Proof/Machine/Dispatch.lean ====
section
/-! DEFINITION. One arm per instruction: EXECUTE with the instruction's own meaning (spec/40_fetch_decode_execute.md
R106). -/

namespace Sys2Proof.Machine

def exec (i : Instr) (s : State) : Host.Outcome State Fault Refusal :=
  match i with
  | .hlt => Sys2Proof.Machine.execHlt s
  | .call a => Sys2Proof.Machine.execCall a s
  | .ret => Sys2Proof.Machine.execRet s
  | .dec a => Sys2Proof.Machine.execDec a s
  | .inc a => Sys2Proof.Machine.execInc a s
  | .not a => Sys2Proof.Machine.execNot a s
  | .ldi a v => Sys2Proof.Machine.execLdi a v s
  | .prn a => Sys2Proof.Machine.execPrn a s
  | .push a => Sys2Proof.Machine.execPush a s
  | .pop a => Sys2Proof.Machine.execPop a s
  | .add a b => Sys2Proof.Machine.execAdd a b s
  | .and a b => Sys2Proof.Machine.execAnd a b s
  | .cmp a b => Sys2Proof.Machine.execCmp a b s
  | .div a b => Sys2Proof.Machine.execDiv a b s
  | .mod a b => Sys2Proof.Machine.execMod a b s
  | .mul a b => Sys2Proof.Machine.execMul a b s
  | .or a b => Sys2Proof.Machine.execOr a b s
  | .sub a b => Sys2Proof.Machine.execSub a b s
  | .xor a b => Sys2Proof.Machine.execXor a b s
  | .nop => Sys2Proof.Machine.execNop s

end Sys2Proof.Machine
end

