-- ==== Sys2Proof/Machine/Fetch.lean ====
section
/-! DEFINITION. Fetching and decoding the instruction at pc (spec/40_fetch_decode_execute.md R102-R104). -/

namespace Sys2Proof.Machine

/-- FETCH: the opcode byte at pc (40_fetch_decode_execute.md R102). -/
def State.fetchOpcode (s : State) : Except FaultCause Byte := s.memRead s.pc

/-- IR <- the fetched opcode (10_state.md R31). -/
def State.latchIR (s : State) (op : Byte) : State := { s with ir := op }

/-- The byte at an address inside memory; none outside, which is no fault of its own
(40_fetch_decode_execute.md R104). -/
def State.byteInside (s : State) (addr : Nat) : Option Byte :=
  if addr < s.cfg.memSize then some (s.byteAt addr) else none

/-- opA: the byte at pc + 1, read whatever the operand count (40_fetch_decode_execute.md R104). -/
def State.operandA (s : State) : Option Byte := s.byteInside (s.pc + 1)

/-- opB: the byte at pc + 2, read whatever the operand count (40_fetch_decode_execute.md R104). -/
def State.operandB (s : State) : Option Byte := s.byteInside (s.pc + 2)

/-- The fetched bytes as the decoder takes them: the opcode, then the operand bytes inside memory. -/
def State.fetchedBytes (s : State) (op : Byte) : List Byte :=
  op :: (s.operandA.toList ++ s.operandB.toList)

/-- DECODE and OPERAND (40_fetch_decode_execute.md R103, R104): the instruction the opcode and its operand bytes
stand for, or the fault. -/
def State.decodeFetched (s : State) (op : Byte) : Except FaultCause Instr :=
  match decode s.cfg (s.fetchedBytes op) with
  | .ok (i, _) => .ok i
  | .error (.unknownOpcode op') => .error (.unknownOpcode op')
  | .error (.missingByte k) => .error (.addressOutOfBounds (s.pc + k))

end Sys2Proof.Machine
end

