-- ==== Sys2Proof/Machine/Step.lean ====
section
/-! DEFINITION. One step (spec/40_fetch_decode_execute.md R100, R110), and the host's placing of an instruction. -/

namespace Sys2Proof.Machine

/-- One `step` request: FETCH, DECODE, OPERAND, then REGCHECK, EXECUTE and ADVANCE in `exec`. In HALTED or FAULTED
the request changes nothing (40_fetch_decode_execute.md R109). -/
def step (s : State) : Host.Outcome State Fault Refusal :=
  match s.run with
  | .halted => .next s
  | .faulted => .next s
  | .running =>
    match s.fetchOpcode with
    | .error c => .next (s.takeFault c)
    | .ok op =>
      match (s.latchIR op).decodeFetched op with
      | .error c => .next ((s.latchIR op).takeFault c)
      | .ok i => exec i (s.latchIR op)

/-- `s` with an instruction word stored where `step` fetches next: the bytes at pc, pc + 1 and pc + 2 that are
inside memory (notes/assumptions/9.md, 18.md). A core that is RUNNING, as after reset, fetches it in the next step. -/
def State.withFetchWord (s : State) (nbits w : Nat) : State := s.load s.pc (tableBytes nbits w)

end Sys2Proof.Machine
end

