-- ==== Sys2Proof/Machine/Ports.lean ====
section
/-! DEFINITION. What the block's ports show (spec/10_state.md R42-R44) and how the host renders the output
(spec/42_handlers.md R174). Views of the state and of one step: they change nothing. -/

namespace Sys2Proof.Machine

/-! ## The status port and the debug view -/

/-- `run_state` (10_state.md R44): 0 RUNNING, 1 HALTED, 2 FAULTED (92_eei_decisions.md D2). -/
def RunState.code : RunState → Nat
  | .running => 0
  | .halted => 1
  | .faulted => 2

/-- `fault_kind`: the code of a fault kind (60_exceptions.md R201). -/
def FaultCause.code : FaultCause → Nat
  | .unknownOpcode _ => 1
  | .divisionByZero _ => 2
  | .addressOutOfBounds _ => 3
  | .stackOverflow _ => 4
  | .stackUnderflow _ => 5
  | .invalidRegisterIndex _ => 6
  | .arithmeticOverflow _ => 7
  | .unwrittenRegisterRead _ => 8

/-- `fault_info`: the info a fault kind records (60_exceptions.md R201). -/
def FaultCause.info : FaultCause → Int
  | .unknownOpcode op => op.toNat
  | .divisionByZero b => b.toNat
  | .addressOutOfBounds addr => addr
  | .stackOverflow sp => sp.toNat
  | .stackUnderflow sp => sp.toNat
  | .invalidRegisterIndex b => b.toNat
  | .arithmeticOverflow v => v
  | .unwrittenRegisterRead r => r.toNat

/-- The status port (10_state.md R44). With no fault, `fault_kind` is 0 (60_exceptions.md R201) and the spec gives
`fault_info` and `fault_pc` no value: none. -/
structure StatusPort where
  runState : Nat
  faultKind : Nat
  faultInfo : Option Int
  faultPc : Option Nat
deriving DecidableEq, Repr

/-- The status port in a state (10_state.md R44). -/
def State.statusPort (s : State) : StatusPort where
  runState := s.run.code
  faultKind := (s.fault.map fun r => r.cause.code).getD 0
  faultInfo := s.fault.map fun r => r.cause.info
  faultPc := s.fault.map fun r => r.pc

/-- The debug view: x[0..7], pc and FL as its 8-bit register (10_state.md R32, R44). -/
structure DebugView where
  x : List Byte
  pc : Nat
  fl : Byte
deriving DecidableEq, Repr

/-- The debug view of a state (10_state.md R44). -/
def State.debugView (s : State) : DebugView where
  x := s.regs.toList
  pc := s.pc
  fl := s.fl.toByte

/-! ## The output port and its rendering -/

/-- The instruction a `step` request would hand to EXECUTE, with the state it runs in: none where the core does not
run or a fault comes first (40_fetch_decode_execute.md R110). -/
def State.nextInstr (s : State) : Option (Instr × State) :=
  if s.run = .running then
    match s.fetchOpcode with
    | .error _ => none
    | .ok op =>
      match (s.latchIR op).decodeFetched op with
      | .error _ => none
      | .ok i => some (i, s.latchIR op)
  else none

/-- The state EXECUTE leaves, where no fault is raised. -/
def completed (i : Instr) (s : State) : Option State :=
  match exec i s with
  | .next t => if t.run = .faulted then none else some t
  | .fault _ => none
  | .refused _ => none

/-- The output port in the next step: one pulse carrying the value, for a PRN that completes; else no pulse
(10_state.md R43). -/
def State.stepOutput (s : State) : Option Byte :=
  match s.nextInstr with
  | some (.prn a, s1) => (completed (.prn a) s1).map fun _ => s1.x a
  | _ => none

/-- One value of the output as the host prints it: decimal digits, no sign, no leading zeros, then LF
(42_handlers.md R174). -/
def renderLine (v : Byte) : List Char := Nat.toDigits 10 v.toNat ++ [Char.ofNat 0x0A]

/-- The output as text (42_handlers.md R174). -/
def renderOut (out : List Byte) : List Char := out.flatMap renderLine

/-! ## The memory port -/

/-- One access on the memory port (10_state.md R42). -/
inductive MemAccess where
  | read (addr : Nat)
  | write (addr : Nat) (v : Byte)
deriving DecidableEq, Repr

/-- The access of the instruction itself: PUSH and CALL write at SP - 1, POP and RET read at SP, no other
instruction reaches memory (20_memory.md R53; 43_stack_and_calls.md R180, R181). A faulting instruction has
stopped before it. -/
def execAccesses (i : Instr) (s : State) : List MemAccess :=
  match completed i s with
  | none => []
  | some _ =>
    match i with
    | .push a => [.write (s.sp.toNat - 1) ((s.setX 7 (s.sp - 1)).x a)]
    | .call _ => [.write (s.sp.toNat - 1) (BitVec.ofNat 8 (s.pc + 2))]
    | .pop _ => [.read s.sp.toNat]
    | .ret => [.read s.sp.toNat]
    | .hlt | .nop | .dec _ | .inc _ | .not _ | .ldi _ _ | .prn _ | .add _ _ | .and _ _ | .cmp _ _ | .div _ _
    | .mod _ _ | .mul _ _ | .or _ _ | .sub _ _ | .xor _ _ => []

/-- The operand reads of a step: pc + 1, then pc + 2, each only inside memory (40_fetch_decode_execute.md R104). -/
def State.operandAccesses (s : State) : List MemAccess :=
  [s.pc + 1, s.pc + 2].filterMap fun a => if a < s.cfg.memSize then some (.read a) else none

/-- The accesses of the next step in order: opcode, operand A, operand B, then the instruction's own
(20_memory.md R53, R60). No operand is fetched after an unknown opcode (40_fetch_decode_execute.md R103). -/
def State.stepAccesses (s : State) : List MemAccess :=
  if s.run = .running then
    match s.fetchOpcode with
    | .error _ => []
    | .ok op =>
      if dispatch s.cfg op = none then [.read s.pc]
      else
        .read s.pc :: (s.operandAccesses ++
          match s.nextInstr with
          | none => []
          | some (i, s1) => execAccesses i s1)
  else []

/-- The memory an access leaves: a write stores its byte, a read changes nothing (20_memory.md R56). -/
def Memory.apply (m : Memory) : MemAccess → Memory
  | .read _ => m
  | .write addr v => Memory.write m addr v

end Sys2Proof.Machine
end

