-- ==== Sys2Proof/WellFormed.lean ====
section
/-! DEFINITION. Well-formed instructions: every register operand names a register (spec/30_encoding.md R72), and
AND is an instruction only where AND_OPCODE is present (30_encoding.md R75; spec/92_eei_decisions.md D25).
An ill-formed instruction is not refused by the machine: it raises InvalidRegisterIndex (60_exceptions.md R207). -/

namespace Sys2Proof

/-- The byte names one of R0-R7: "Values 0-7 select R0-R7" (30_encoding.md R72). -/
def namesRegister (b : Byte) : Bool := decide (b.toNat < 8)

/-- Well-formedness under a configuration, constructor by constructor (30_encoding.md R71, R72, R75). -/
def Instr.wellFormed (c : Config) : Instr → Bool
  | .hlt => true
  | .call a => namesRegister a
  | .ret => true
  | .dec a => namesRegister a
  | .inc a => namesRegister a
  | .not a => namesRegister a
  | .ldi a _ => namesRegister a
  | .prn a => namesRegister a
  | .push a => namesRegister a
  | .pop a => namesRegister a
  | .add a b => namesRegister a && namesRegister b
  | .and a b => namesRegister a && namesRegister b && c.andOpcode.isSome
  | .cmp a b => namesRegister a && namesRegister b
  | .div a b => namesRegister a && namesRegister b
  | .mod a b => namesRegister a && namesRegister b
  | .mul a b => namesRegister a && namesRegister b
  | .or a b => namesRegister a && namesRegister b
  | .sub a b => namesRegister a && namesRegister b
  | .xor a b => namesRegister a && namesRegister b
  | .nop => true

end Sys2Proof
end

