-- ==== Sys2Proof/Safety.lean ====
section
/-! DEFINITION. What the claims speak of: frames, the machine's invariant, what justifies a fault record, and the ends
of a run (spec/70_reset_and_hazards.md R234). -/

namespace Sys2Proof.Machine

/-! ## Frames -/

/-- Every register but those listed holds what it held, and its written mark. -/
def RegsKept (s t : State) (but : List Byte) : Prop :=
  ∀ c : Byte, c.toNat < 8 → c ∉ but → t.x c = s.x c ∧ t.isWritten c = s.isWritten c

/-- Every byte of memory reads as before. -/
def MemKept (s t : State) : Prop := ∀ addr, t.byteAt addr = s.byteAt addr

/-- Every byte of memory but one reads as before. -/
def MemKeptBut (s t : State) (stored : Nat) : Prop := ∀ addr, addr ≠ stored → t.byteAt addr = s.byteAt addr

/-- What no completed instruction's EXECUTE and ADVANCE write: IR, the fault record and the parameters. -/
def ControlKept (s t : State) : Prop := t.ir = s.ir ∧ t.fault = s.fault ∧ t.cfg = s.cfg

/-- All but registers, memory and pc is kept: FL, the run state, the output and what `ControlKept` names. -/
def OthersKept (s t : State) : Prop := t.fl = s.fl ∧ t.run = s.run ∧ t.out = s.out ∧ ControlKept s t

/-- Only register `a` (and pc) may differ between `s` and `t`; `a` counts as written. -/
def OnlyRegister (s t : State) (a : Byte) : Prop :=
  t.isWritten a = true ∧ RegsKept s t [a] ∧ MemKept s t ∧ OthersKept s t

/-- `t` is `s` with the fault taken and nothing else changed (60_exceptions.md R212; 40_fetch_decode_execute.md
R108). -/
def FaultTaken (s t : State) (c : FaultCause) : Prop :=
  t.run = .faulted ∧ t.fault = some ⟨c, s.pc⟩ ∧ t.pc = s.pc ∧ RegsKept s t [] ∧ MemKept s t ∧ t.fl = s.fl ∧
    t.out = s.out ∧ t.ir = s.ir ∧ t.cfg = s.cfg

/-! ## Conditions on operands -/

/-- The opcode bytes of the fixed rows, written out from the map of 30_encoding.md R77. -/
def assignedOpcodes : List Byte :=
  [0x00, 0x01, 0x09, 0x43, 0x48, 0x4C, 0x4D, 0x70, 0x78, 0x79, 0x99, 0xA0, 0xA9, 0xAA, 0xAB, 0xAC, 0xB1, 0xB2, 0xB3]

/-- The bytes a step has before it: those at pc, pc + 1 and pc + 2 that are inside memory
(40_fetch_decode_execute.md R102, R104). -/
def bytesAtPc (s : State) : List Byte :=
  ([s.pc, s.pc + 1, s.pc + 2].filter fun a => decide (a < s.cfg.memSize)).map s.byteAt

/-- The registers may be read: the configuration carries on at an unwritten one, or all of them are written
(10_state.md R24; notes/assumptions/3.md). -/
def Readable (s : State) (rs : List Byte) : Prop :=
  s.cfg.unwrittenReads = .carryOn ∨ ∀ r ∈ rs, s.isWritten r = true

/-- A register is one whose read the configuration faults: the `fault` policy, and nothing has written it
(60_exceptions.md R209). -/
def FaultsOnRead (s : State) (r : Byte) : Prop :=
  s.cfg.unwrittenReads = .fault ∧ s.isWritten r = false

/-- REGCHECK of an instruction that names register `a` and reads the registers `rs`, in that order: what it faults
with, and when (40_fetch_decode_execute.md R105, R112). -/
def ChecksOneOperand (i : Instr) (a : Byte) (rs : List Byte) (s : State) : Prop :=
  (8 ≤ a.toNat → ∃ t, exec i s = .next t ∧ FaultTaken s t (.invalidRegisterIndex a)) ∧
  (a.toNat < 8 → ∀ before r after, rs = before ++ r :: after → FaultsOnRead s r →
    (∀ q ∈ before, s.isWritten q = true) →
    ∃ t, exec i s = .next t ∧ FaultTaken s t (.unwrittenRegisterRead r))

/-- REGCHECK of an instruction that names and reads the registers `a` and `b`, in that order
(40_fetch_decode_execute.md R105, R112). -/
def ChecksTwoOperands (i : Instr) (a b : Byte) (s : State) : Prop :=
  (8 ≤ a.toNat → ∃ t, exec i s = .next t ∧ FaultTaken s t (.invalidRegisterIndex a)) ∧
  (a.toNat < 8 → 8 ≤ b.toNat → ∃ t, exec i s = .next t ∧ FaultTaken s t (.invalidRegisterIndex b)) ∧
  (a.toNat < 8 → b.toNat < 8 → FaultsOnRead s a →
    ∃ t, exec i s = .next t ∧ FaultTaken s t (.unwrittenRegisterRead a)) ∧
  (a.toNat < 8 → b.toNat < 8 → s.isWritten a = true → FaultsOnRead s b →
    ∃ t, exec i s = .next t ∧ FaultTaken s t (.unwrittenRegisterRead b))

/-- The exact result `v` can be written under the configuration's OVERFLOW_POLICY: only FAULT refuses one
(41_alu.md R131). -/
def Fits (s : State) (v : Int) : Prop := s.cfg.overflow = .fault → 0 ≤ v ∧ v ≤ 255

/-- The value a policy writes for an exact result that it does not fault on: `v mod 256` under WRAP, else `v` brought
into 0..255 (41_alu.md R131). -/
def fittedValue (p : OverflowPolicy) (v : Int) : Int :=
  match p with
  | .wrap => v % 256
  | .saturate => min (max v 0) 255
  | .fault => v

/-! ## Invariants -/

/-- What every step keeps. -/
structure Inv (s : State) : Prop where
  /-- The parameters are in their domains (00_scope.md R5). -/
  valid : s.cfg.Valid
  /-- Memory is in canonical form. -/
  memWf : Memory.wf s.mem
  /-- No byte outside the address space is held (20_memory.md R50, R51). -/
  memWithin : Memory.within s.cfg.memSize s.mem
  /-- pc is at most MEM_SIZE after a sequential advance, a byte value after a jump (10_state.md R26, R29;
  notes/assumptions/10.md). -/
  pcBound : s.pc ≤ s.cfg.memSize ∨ s.pc < 256
  /-- The fault record is held in FAULTED and only there (10_state.md R37). -/
  record : s.run = .faulted ↔ s.fault ≠ none
  /-- R7 is never unwritten (10_state.md R24). -/
  spWritten : s.isWritten 7 = true

/-- The instruction at pc: what the bytes there decode to. -/
def InstrAt (s : State) (i : Instr) : Prop := ∃ rest, decode s.cfg (bytesAtPc s) = .ok (i, rest)

/-- The exact integer result that the instruction fits into its register, for the five that do (41_alu.md R131, R133,
R138-R141). -/
def exactResult (s : State) : Instr → Option Int
  | .add a b => some ((s.x a).toNat + (s.x b).toNat)
  | .sub a b => some ((s.x a).toNat - (s.x b).toNat)
  | .mul a b => some ((s.x a).toNat * (s.x b).toNat)
  | .inc a => some ((s.x a).toNat + 1)
  | .dec a => some ((s.x a).toNat - 1)
  | .hlt | .call _ | .ret | .not _ | .ldi _ _ | .prn _ | .push _ | .pop _ | .and _ _ | .cmp _ _ | .div _ _ | .mod _ _
  | .or _ _ | .xor _ _ | .nop => none

/-- The opcode at pc has been fetched and is assigned: the step has passed FETCH and DECODE. -/
def Fetched (s : State) : Prop := s.pc < s.cfg.memSize ∧ s.ir = s.byteAt s.pc ∧ dispatch s.cfg s.ir ≠ none

/-- A fault kind is justified in the state that records it: the condition the "raised by" column of 60_exceptions.md
R201 gives holds there, at an instruction it names (R202-R209), and the info is what that rule says is recorded. An
InvalidRegisterIndex names the first register operand over 7, an UnwrittenRegisterRead the first unwritten register of
those the instruction reads, all its operands being registers (R211 items 4 and 5). -/
def Justified (s : State) : FaultCause → Prop
  | .unknownOpcode op =>
    s.pc < s.cfg.memSize ∧ op = s.byteAt s.pc ∧ s.ir = op ∧ dispatch s.cfg op = none
  | .divisionByZero b =>
    s.ir ∈ [0xAB, 0xAC] ∧ b = s.byteAt (s.pc + 2) ∧ b.toNat < 8 ∧ s.x b = 0 ∧
      ∃ a, InstrAt s (.div a b) ∨ InstrAt s (.mod a b)
  | .addressOutOfBounds addr =>
    s.cfg.memSize ≤ addr ∧
      (addr = s.pc ∨
        (Fetched s ∧
          ((addr = s.pc + 1 ∧ 1 ≤ opcount s.ir) ∨
            (addr = s.pc + 2 ∧ s.pc + 1 < s.cfg.memSize ∧ (2 ≤ opcount s.ir ∨ s.ir = 0x48)) ∨
            (addr = s.sp.toNat - 1 ∧ s.cfg.stackLimit < s.sp.toNat ∧ s.ir ∈ [0x4D, 0x48]) ∨
            (addr = s.sp.toNat ∧ s.sp.toNat < 0xF4 ∧ s.ir ∈ [0x4C, 0x09]))))
  | .stackOverflow sp => s.ir ∈ [0x4D, 0x48] ∧ sp = s.sp ∧ sp.toNat ≤ s.cfg.stackLimit
  | .stackUnderflow sp => s.ir ∈ [0x4C, 0x09] ∧ sp = s.sp ∧ 0xF4 ≤ sp.toNat
  | .invalidRegisterIndex b =>
    8 ≤ b.toNat ∧ (b = s.byteAt (s.pc + 1) ∨ b = s.byteAt (s.pc + 2)) ∧
      ∃ i before after, InstrAt s i ∧ regOperands i = before ++ b :: after ∧ ∀ q ∈ before, q.toNat < 8
  | .arithmeticOverflow v =>
    s.cfg.overflow = .fault ∧ (v < 0 ∨ 255 < v) ∧ s.ir ∈ [0xB3, 0xA9, 0xAA, 0x78, 0x79] ∧
      ∃ i, InstrAt s i ∧ exactResult s i = some v
  | .unwrittenRegisterRead r =>
    r.toNat < 8 ∧ FaultsOnRead s r ∧
      ∃ i before after, InstrAt s i ∧ (∀ q ∈ regOperands i, q.toNat < 8) ∧ readRegs i = before ++ r :: after ∧
        ∀ q ∈ before, s.isWritten q = true

/-- A core that runs has an empty fault record, and a record names the pc the core stopped at and a justified fault
(10_state.md R37; 60_exceptions.md R201, R212). -/
def RecordTruthful (s : State) : Prop :=
  (s.run = .running → s.fault = none) ∧ ∀ r, s.fault = some r → r.pc = s.pc ∧ Justified s r.cause

/-! ## Runs and their ends -/

/-- `t` is the state after `k` step requests from `s` (70_reset_and_hazards.md R238). -/
def Reaches (k : Nat) (s t : State) : Prop := Sys2Proof.core.run k s = .next t

/-- The run is finished: HALTED (70_reset_and_hazards.md R234). -/
def Finished (s : State) : Prop := s.run = .halted

/-- The run has failed: FAULTED (70_reset_and_hazards.md R234). -/
def Failed (s : State) : Prop := s.run = .faulted

/-- The driver has stopped stepping while the core still runs (70_reset_and_hazards.md R234). -/
def Unfinished (s : State) : Prop := s.run = .running

/-- The run from `s` is a hang: however many steps are requested, the core still runs (70_reset_and_hazards.md
R234). -/
def Hang (s : State) : Prop := ∀ k, ∃ t, Reaches k s t ∧ t.run = .running

end Sys2Proof.Machine
end

