-- ==== Sys2Proof/Certificates/Slice0/Obligations.lean ====
section
/-! DEFINITION. The statements for the provers. Each docstring says which rule of spec/ it formalises. Register bytes are
any byte; where a statement asks `a.toNat < 8`, the clause on REGCHECK beside it says what the other bytes do.
`Readable` and `FaultsOnRead` rest on the model's own parameter, the UNWRITTEN_READS policy (notes/assumptions/3.md):
`carryOn` is what 10_state.md R24 says of hardware, `fault` the model fault of 60_exceptions.md R209. -/

open Sys2Proof Sys2Proof.Machine

/-! ## Encoding -/

/-- The opcode table, row by row, with the operand bytes at every value (30_encoding.md R74). The AND row's opcode is
the parameter AND_OPCODE (R75). -/
def Obligations.OpcodeTableRowsDecode : Prop :=
  ∀ (c : Config) (a b : Byte) (rest : List Byte),
    decode c (0x01 :: rest) = .ok (.hlt, rest) ∧
    decode c (0x48 :: a :: rest) = .ok (.call a, rest) ∧
    decode c (0x09 :: rest) = .ok (.ret, rest) ∧
    decode c (0x79 :: a :: rest) = .ok (.dec a, rest) ∧
    decode c (0x78 :: a :: rest) = .ok (.inc a, rest) ∧
    decode c (0x70 :: a :: rest) = .ok (.not a, rest) ∧
    decode c (0x99 :: a :: b :: rest) = .ok (.ldi a b, rest) ∧
    decode c (0x43 :: a :: rest) = .ok (.prn a, rest) ∧
    decode c (0x4D :: a :: rest) = .ok (.push a, rest) ∧
    decode c (0x4C :: a :: rest) = .ok (.pop a, rest) ∧
    decode c (0xB3 :: a :: b :: rest) = .ok (.add a b, rest) ∧
    decode c (0xA0 :: a :: b :: rest) = .ok (.cmp a b, rest) ∧
    decode c (0xAB :: a :: b :: rest) = .ok (.div a b, rest) ∧
    decode c (0xAC :: a :: b :: rest) = .ok (.mod a b, rest) ∧
    decode c (0xAA :: a :: b :: rest) = .ok (.mul a b, rest) ∧
    decode c (0xB1 :: a :: b :: rest) = .ok (.or a b, rest) ∧
    decode c (0xA9 :: a :: b :: rest) = .ok (.sub a b, rest) ∧
    decode c (0xB2 :: a :: b :: rest) = .ok (.xor a b, rest) ∧
    decode c (0x00 :: rest) = .ok (.nop, rest) ∧
    ∀ k, c.Valid → c.andOpcode = some k → decode c (k :: a :: b :: rest) = .ok (.and a b, rest)

/-- 0xB3 is ADD in every configuration; with AND_OPCODE absent no bytes decode to AND; with a valid AND_OPCODE that byte
decodes to AND; a valid AND_OPCODE is an unassigned byte with bits 7:6 = 0b10 (30_encoding.md R75). -/
def Obligations.AndOpcodeIsAParameter : Prop :=
  (∀ c a b rest, decode c (0xB3 :: a :: b :: rest) = .ok (.add a b, rest)) ∧
  (∀ (c : Config) bytes a b rest, c.andOpcode = none → decode c bytes ≠ .ok (.and a b, rest)) ∧
  (∀ (c : Config) k a b rest, c.Valid → c.andOpcode = some k → decode c (k :: a :: b :: rest) = .ok (.and a b, rest)) ∧
  (∀ k : Byte, (∃ c : Config, c.Valid ∧ c.andOpcode = some k) ↔ k.toNat / 64 = 2 ∧ k ∉ assignedOpcodes)

/-- Decoding an encoded instruction gives it back and consumes exactly its bytes, whatever its operand bytes; every
instruction but AND has an encoding, and AND has one where AND_OPCODE is present (30_encoding.md R70, R71, R74, R75). -/
def Obligations.DecodeOfEncode : Prop :=
  ∀ (c : Config) (i : Instr) (rest : List Byte), c.Valid → (i.operation = .and → c.andOpcode ≠ none) →
    ∃ bytes, encode c i = some bytes ∧ decode c (bytes ++ rest) = .ok (i, rest)

/-- Whatever decodes is the encoding of what it decodes to: no two encodings of one instruction, and no byte of an
instruction is dropped (30_encoding.md R76, R78). -/
def Obligations.EncodeOfDecode : Prop :=
  ∀ (c : Config) (bytes rest : List Byte) (i : Instr), c.Valid → decode c bytes = .ok (i, rest) →
    ∃ pre, encode c i = some pre ∧ bytes = pre ++ rest

/-- The bytes the dispatch table does not map are those outside the map of 30_encoding.md R77 and not AND_OPCODE; the
decoder rejects each by name with its value; there are 237 of them, 236 with AND_OPCODE present. -/
def Obligations.UnassignedOpcodesAreUnknown : Prop :=
  ∀ c : Config, c.Valid →
    (∀ op rest, decode c (op :: rest) = .error (.unknownOpcode op) ↔ op ∉ assignedOpcodes ∧ c.andOpcode ≠ some op) ∧
    ((List.range 256).filter fun n => (dispatch c (BitVec.ofNat 8 n)).isNone).length =
      if c.andOpcode = none then 237 else 236

/-- An instruction is its opcode byte and as many operand bytes as bits 7:6 of the opcode say; it is 1, 2 or 3 bytes
long (30_encoding.md R70). -/
def Obligations.LengthIsInTheFirstByte : Prop :=
  ∀ (c : Config) op rest i rest', c.Valid → decode c (op :: rest) = .ok (i, rest') →
    i.length = op.toNat / 64 + 1 ∧ i.length ≤ 3 ∧ rest = rest.take (op.toNat / 64) ++ rest' ∧
      (rest.take (op.toNat / 64)).length = op.toNat / 64

/-- The bytes beyond the declared operands never matter to what is decoded (40_fetch_decode_execute.md R114). -/
def Obligations.UndeclaredBytesNeverMatter : Prop :=
  ∀ (c : Config) op xs ys i r, c.Valid → decode c (op :: xs) = .ok (i, r) →
    ys.take (opcount op) = xs.take (opcount op) → ∃ r', decode c (op :: ys) = .ok (i, r')

/-! ## The step -/

/-- When the bytes at pc decode to an instruction, a step of a RUNNING core is that instruction's `exec` in the state
whose IR holds the fetched opcode; `exec` does the rest, the advance of pc included (40_fetch_decode_execute.md R110). -/
def Obligations.StepRunsTheDecodedInstruction : Prop :=
  ∀ (s : State) i rest, s.run = .running → s.pc < s.cfg.memSize → decode s.cfg (bytesAtPc s) = .ok (i, rest) →
    step s = exec i { s with ir := s.byteAt s.pc }

/-- FETCH (40_fetch_decode_execute.md R102): a pc outside memory faults with its address; otherwise IR takes the byte at
pc, whatever the step does after. -/
def Obligations.FetchReadsAtPcOrFaults : Prop :=
  ∀ s : State, s.run = .running →
    (s.cfg.memSize ≤ s.pc → ∃ t, step s = .next t ∧ FaultTaken s t (.addressOutOfBounds s.pc)) ∧
    (s.pc < s.cfg.memSize → ∃ t, step s = .next t ∧ t.ir = s.byteAt s.pc)

/-- UnknownOpcode (60_exceptions.md R202; 40_fetch_decode_execute.md R103): an unassigned byte at pc faults with that
byte, pc is not advanced, and IR holds the byte. -/
def Obligations.UnassignedOpcodeFaults : Prop :=
  ∀ s : State, s.cfg.Valid → s.run = .running → s.pc < s.cfg.memSize →
    s.byteAt s.pc ∉ assignedOpcodes → s.cfg.andOpcode ≠ some (s.byteAt s.pc) →
    ∃ t, step s = .next t ∧ FaultTaken { s with ir := s.byteAt s.pc } t (.unknownOpcode (s.byteAt s.pc))

/-- OPERAND (40_fetch_decode_execute.md R104): of an assigned opcode, a declared operand byte outside memory faults with
its address, A before B; an undeclared one does not, and the handler gets the declared bytes. -/
def Obligations.DeclaredOperandsMustBeInMemory : Prop :=
  ∀ (s : State) h, s.cfg.Valid → s.run = .running → s.pc < s.cfg.memSize → dispatch s.cfg (s.byteAt s.pc) = some h →
    (1 ≤ (s.byteAt s.pc).toNat / 64 → s.cfg.memSize ≤ s.pc + 1 →
      ∃ t, step s = .next t ∧ FaultTaken { s with ir := s.byteAt s.pc } t (.addressOutOfBounds (s.pc + 1))) ∧
    (2 ≤ (s.byteAt s.pc).toNat / 64 → s.pc + 1 < s.cfg.memSize → s.cfg.memSize ≤ s.pc + 2 →
      ∃ t, step s = .next t ∧ FaultTaken { s with ir := s.byteAt s.pc } t (.addressOutOfBounds (s.pc + 2))) ∧
    (s.pc + (s.byteAt s.pc).toNat / 64 < s.cfg.memSize →
      step s = exec (h.instr (s.byteAt (s.pc + 1)) (s.byteAt (s.pc + 2))) { s with ir := s.byteAt s.pc })

/-- In HALTED or FAULTED a step request, or any number of them, changes nothing; reset leaves these states
(40_fetch_decode_execute.md R109). -/
def Obligations.StoppedCoreChangesOnlyByReset : Prop :=
  ∀ s : State, s.run ≠ .running →
    (∀ k t, Reaches k s t → t = s) ∧ (∀ k, Reaches k s s) ∧ ∀ d, (s.coreReset d).run = .running

/-- Every number of step requests has its state, from every state: no instruction is refused and nothing stops the model
outside its state (60_exceptions.md R200; notes/assumptions/7.md). -/
def Obligations.EveryRunHasItsState : Prop := ∀ k (s : State), ∃ t, Reaches k s t

/-- Faults are precise (40_fetch_decode_execute.md R108): a faulting step sets the record and the run state, IR if the
fetch succeeded, and nothing else. -/
def Obligations.FaultingStepIsPrecise : Prop :=
  ∀ s t : State, s.run = .running → step s = .next t → t.run = .faulted →
    ∃ c, t =
      { s with
        run := .faulted
        fault := some ⟨c, s.pc⟩
        ir := if s.pc < s.cfg.memSize then s.byteAt s.pc else s.ir }

/-- The advance law (40_fetch_decode_execute.md R113), with where a control transfer may go (R106). -/
def Obligations.PcAdvancesByTheDeclaredLength : Prop :=
  ∀ s t : State, s.cfg.Valid → s.run = .running → step s = .next t →
    (t.run = .faulted → t.pc = s.pc) ∧
    (t.run ≠ .faulted → t.ir ≠ 0x48 → t.ir ≠ 0x09 → t.pc = s.pc + t.ir.toNat / 64 + 1) ∧
    (t.run ≠ .faulted → t.ir = 0x48 ∨ t.ir = 0x09 → t.pc < 256)

/-! ## Invariants and whole-machine rules -/

/-- Every step keeps the invariant: valid parameters, memory in canonical form and inside the address space, pc in its
range, a fault record exactly in FAULTED, R7 written (10_state.md R24, R26, R37; 20_memory.md R50). -/
def Obligations.StepKeepsTheInvariant : Prop := ∀ s t : State, Inv s → step s = .next t → Inv t

/-- Reset, in every admitted configuration, with every draw and whatever memory in canonical form, meets the invariant, and
its fault record is truthful (10_state.md R47). -/
def Obligations.ResetMeetsTheInvariant : Prop :=
  Inv State.reset ∧ RecordTruthful State.reset ∧
  ∀ (d : ResetDraw) (s : State), s.cfg.Valid → Memory.wf s.mem → Memory.within s.cfg.memSize s.mem →
    Inv (s.coreReset d) ∧ RecordTruthful (s.coreReset d)

/-- Every step keeps the fault record truthful: it names the pc the core stopped at and a kind whose condition holds
there, at an instruction that kind belongs to, with the info that kind records (60_exceptions.md R201-R209, R211, R212).
That UnwrittenRegisterRead comes only under UNWRITTEN_READS = fault is the model's choice (notes/assumptions/3.md). -/
def Obligations.StepKeepsTheRecordTruthful : Prop :=
  ∀ s t : State, s.cfg.Valid → RecordTruthful s → step s = .next t → RecordTruthful t

/-- CMP is the only instruction that writes FL, and it writes only FL.E (10_state.md R33). -/
def Obligations.OnlyCmpWritesFlags : Prop :=
  ∀ s t : State, step s = .next t →
    (t.fl ≠ s.fl → s.run = .running ∧ t.run = .running ∧ s.byteAt s.pc = 0xA0) ∧
    t.fl.g = s.fl.g ∧ t.fl.l = s.fl.l ∧ t.fl.toByte >>> 1 = s.fl.toByte >>> 1

/-- `out` is empty after reset and appended to only by PRN, with the register's value (10_state.md R38). -/
def Obligations.OnlyPrnAppendsToOutput : Prop :=
  (∀ d (s : State), (s.coreReset d).out = []) ∧
  ∀ s t : State, step s = .next t →
    t.out = s.out ∨
      (s.run = .running ∧ s.byteAt s.pc = 0x43 ∧ t.out = s.out ++ [s.x (s.byteAt (s.pc + 1))])

/-- A step changes at most one byte of memory: the one below SP, by a PUSH or CALL that passes the stack's bounds; it is
inside memory (20_memory.md R53, R58; 43_stack_and_calls.md R180). -/
def Obligations.OnlyPushAndCallWriteMemory : Prop :=
  ∀ s t : State, step s = .next t → ∀ addr, t.byteAt addr ≠ s.byteAt addr →
    s.run = .running ∧ (s.byteAt s.pc = 0x4D ∨ s.byteAt s.pc = 0x48) ∧ addr + 1 = s.sp.toNat ∧
      s.cfg.stackLimit < s.sp.toNat ∧ addr < s.cfg.memSize

/-- Which instructions write which registers (10_state.md R25): a register changes only as the operand register of an
instruction that writes it, or, R7, by the stack primitives. -/
def Obligations.RegisterWritesFollowTheTable : Prop :=
  ∀ s t : State, s.cfg.Valid → step s = .next t → ∀ r : Byte, t.x r ≠ s.x r →
    s.run = .running ∧
      ((r = s.byteAt (s.pc + 1) ∧ s.byteAt s.pc ∉ [0x00, 0x01, 0x09, 0x43, 0x48, 0x4D, 0xA0]) ∨
        (r = 7 ∧ s.byteAt s.pc ∈ [0x09, 0x48, 0x4C, 0x4D]))

/-- HLT moves RUNNING to HALTED, a fault, and only a fault, moves it to FAULTED and fills the record
(10_state.md R36, R37). -/
def Obligations.OnlyHltAndFaultsEndTheRun : Prop :=
  ∀ s t : State, s.run = .running → s.fault = none → step s = .next t →
    (t.run = .halted ↔ s.pc < s.cfg.memSize ∧ s.byteAt s.pc = 0x01) ∧ (t.run = .faulted ↔ t.fault ≠ none)

/-- The dispatch table and the other parameters are fixed: no step, reset or load changes them (10_state.md R39). -/
def Obligations.ParametersNeverChange : Prop :=
  (∀ s t : State, step s = .next t → t.cfg = s.cfg) ∧ (∀ d (s : State), (s.coreReset d).cfg = s.cfg) ∧
  (∀ vs (s : State) addr, (s.load addr vs).cfg = s.cfg)

/-! ## ALU instructions -/

/-- ADD (41_alu.md R133).
The clauses on unwritten registers rest on the model's UNWRITTEN_READS policy (notes/assumptions/3.md). -/
def Obligations.AddWritesTheFittedSum : Prop :=
  ∀ (s : State) (a b : Byte),
    (∀ rest, decode s.cfg (0xB3 :: a :: b :: rest) = .ok (.add a b, rest)) ∧
    ChecksTwoOperands (.add a b) a b s ∧
    (a.toNat < 8 → b.toNat < 8 → Readable s [a, b] → Fits s ((s.x a).toNat + (s.x b).toNat) →
      ∃ t, exec (.add a b) s = .next t ∧
        ((t.x a).toNat : Int) = fittedValue s.cfg.overflow ((s.x a).toNat + (s.x b).toNat) ∧
        t.pc = s.pc + 3 ∧ OnlyRegister s t a) ∧
    (a.toNat < 8 → b.toNat < 8 → Readable s [a, b] → ¬ Fits s ((s.x a).toNat + (s.x b).toNat) →
      ∃ t, exec (.add a b) s = .next t ∧ FaultTaken s t (.arithmeticOverflow ((s.x a).toNat + (s.x b).toNat)))

/-- SUB (41_alu.md R141).
The clauses on unwritten registers rest on the model's UNWRITTEN_READS policy (notes/assumptions/3.md). -/
def Obligations.SubWritesTheFittedDifference : Prop :=
  ∀ (s : State) (a b : Byte),
    (∀ rest, decode s.cfg (0xA9 :: a :: b :: rest) = .ok (.sub a b, rest)) ∧
    ChecksTwoOperands (.sub a b) a b s ∧
    (a.toNat < 8 → b.toNat < 8 → Readable s [a, b] → Fits s ((s.x a).toNat - (s.x b).toNat) →
      ∃ t, exec (.sub a b) s = .next t ∧
        ((t.x a).toNat : Int) = fittedValue s.cfg.overflow ((s.x a).toNat - (s.x b).toNat) ∧
        t.pc = s.pc + 3 ∧ OnlyRegister s t a) ∧
    (a.toNat < 8 → b.toNat < 8 → Readable s [a, b] → ¬ Fits s ((s.x a).toNat - (s.x b).toNat) →
      ∃ t, exec (.sub a b) s = .next t ∧ FaultTaken s t (.arithmeticOverflow ((s.x a).toNat - (s.x b).toNat)))

/-- MUL (41_alu.md R140).
The clauses on unwritten registers rest on the model's UNWRITTEN_READS policy (notes/assumptions/3.md). -/
def Obligations.MulWritesTheFittedProduct : Prop :=
  ∀ (s : State) (a b : Byte),
    (∀ rest, decode s.cfg (0xAA :: a :: b :: rest) = .ok (.mul a b, rest)) ∧
    ChecksTwoOperands (.mul a b) a b s ∧
    (a.toNat < 8 → b.toNat < 8 → Readable s [a, b] → Fits s ((s.x a).toNat * (s.x b).toNat) →
      ∃ t, exec (.mul a b) s = .next t ∧
        ((t.x a).toNat : Int) = fittedValue s.cfg.overflow ((s.x a).toNat * (s.x b).toNat) ∧
        t.pc = s.pc + 3 ∧ OnlyRegister s t a) ∧
    (a.toNat < 8 → b.toNat < 8 → Readable s [a, b] → ¬ Fits s ((s.x a).toNat * (s.x b).toNat) →
      ∃ t, exec (.mul a b) s = .next t ∧ FaultTaken s t (.arithmeticOverflow ((s.x a).toNat * (s.x b).toNat)))

/-- INC (41_alu.md R138).
The clauses on unwritten registers rest on the model's UNWRITTEN_READS policy (notes/assumptions/3.md). -/
def Obligations.IncWritesTheFittedSuccessor : Prop :=
  ∀ (s : State) (a : Byte),
    (∀ rest, decode s.cfg (0x78 :: a :: rest) = .ok (.inc a, rest)) ∧
    ChecksOneOperand (.inc a) a [a] s ∧
    (a.toNat < 8 → Readable s [a] → Fits s ((s.x a).toNat + 1) →
      ∃ t, exec (.inc a) s = .next t ∧ ((t.x a).toNat : Int) = fittedValue s.cfg.overflow ((s.x a).toNat + 1) ∧
        t.pc = s.pc + 2 ∧ OnlyRegister s t a) ∧
    (a.toNat < 8 → Readable s [a] → s.cfg.overflow = .fault → (s.x a).toNat = 255 →
      ∃ t, exec (.inc a) s = .next t ∧ FaultTaken s t (.arithmeticOverflow 256))

/-- DEC (41_alu.md R139).
The clauses on unwritten registers rest on the model's UNWRITTEN_READS policy (notes/assumptions/3.md). -/
def Obligations.DecWritesTheFittedPredecessor : Prop :=
  ∀ (s : State) (a : Byte),
    (∀ rest, decode s.cfg (0x79 :: a :: rest) = .ok (.dec a, rest)) ∧
    ChecksOneOperand (.dec a) a [a] s ∧
    (a.toNat < 8 → Readable s [a] → Fits s ((s.x a).toNat - 1) →
      ∃ t, exec (.dec a) s = .next t ∧ ((t.x a).toNat : Int) = fittedValue s.cfg.overflow ((s.x a).toNat - 1) ∧
        t.pc = s.pc + 2 ∧ OnlyRegister s t a) ∧
    (a.toNat < 8 → Readable s [a] → s.cfg.overflow = .fault → (s.x a).toNat = 0 →
      ∃ t, exec (.dec a) s = .next t ∧ FaultTaken s t (.arithmeticOverflow (-1)))

/-- NOT (41_alu.md R137): the complement within 8 bits, 255 minus the value.
The clauses on unwritten registers rest on the model's UNWRITTEN_READS policy (notes/assumptions/3.md). -/
def Obligations.NotWritesTheComplement : Prop :=
  ∀ (s : State) (a : Byte),
    (∀ rest, decode s.cfg (0x70 :: a :: rest) = .ok (.not a, rest)) ∧
    ChecksOneOperand (.not a) a [a] s ∧
    (a.toNat < 8 → Readable s [a] →
      ∃ t, exec (.not a) s = .next t ∧ (t.x a).toNat = 255 - (s.x a).toNat ∧
        (∀ k, k < 8 → (t.x a).getLsbD k = !(s.x a).getLsbD k) ∧ t.pc = s.pc + 2 ∧ OnlyRegister s t a)

/-- AND (41_alu.md R134), bit by bit; its opcode is AND_OPCODE where present.
The clauses on unwritten registers rest on the model's UNWRITTEN_READS policy (notes/assumptions/3.md). -/
def Obligations.AndWritesTheBitwiseAnd : Prop :=
  ∀ (s : State) (a b : Byte),
    (∀ k rest, s.cfg.Valid → s.cfg.andOpcode = some k → decode s.cfg (k :: a :: b :: rest) = .ok (.and a b, rest)) ∧
    (∀ bytes a' b' rest, s.cfg.andOpcode = none → decode s.cfg bytes ≠ .ok (.and a' b', rest)) ∧
    ChecksTwoOperands (.and a b) a b s ∧
    (a.toNat < 8 → b.toNat < 8 → Readable s [a, b] →
      ∃ t, exec (.and a b) s = .next t ∧
        (∀ k, k < 8 → (t.x a).getLsbD k = ((s.x a).getLsbD k && (s.x b).getLsbD k)) ∧
        t.pc = s.pc + 3 ∧ OnlyRegister s t a)

/-- OR (41_alu.md R135), bit by bit.
The clauses on unwritten registers rest on the model's UNWRITTEN_READS policy (notes/assumptions/3.md). -/
def Obligations.OrWritesTheBitwiseOr : Prop :=
  ∀ (s : State) (a b : Byte),
    (∀ rest, decode s.cfg (0xB1 :: a :: b :: rest) = .ok (.or a b, rest)) ∧
    ChecksTwoOperands (.or a b) a b s ∧
    (a.toNat < 8 → b.toNat < 8 → Readable s [a, b] →
      ∃ t, exec (.or a b) s = .next t ∧
        (∀ k, k < 8 → (t.x a).getLsbD k = ((s.x a).getLsbD k || (s.x b).getLsbD k)) ∧
        t.pc = s.pc + 3 ∧ OnlyRegister s t a)

/-- XOR (41_alu.md R136), bit by bit.
The clauses on unwritten registers rest on the model's UNWRITTEN_READS policy (notes/assumptions/3.md). -/
def Obligations.XorWritesTheBitwiseXor : Prop :=
  ∀ (s : State) (a b : Byte),
    (∀ rest, decode s.cfg (0xB2 :: a :: b :: rest) = .ok (.xor a b, rest)) ∧
    ChecksTwoOperands (.xor a b) a b s ∧
    (a.toNat < 8 → b.toNat < 8 → Readable s [a, b] →
      ∃ t, exec (.xor a b) s = .next t ∧
        (∀ k, k < 8 → (t.x a).getLsbD k = ((s.x a).getLsbD k ^^ (s.x b).getLsbD k)) ∧
        t.pc = s.pc + 3 ∧ OnlyRegister s t a)

/-- DIV (41_alu.md R142): the truncated quotient; a zero divisor faults and writes nothing.
The clauses on unwritten registers rest on the model's UNWRITTEN_READS policy (notes/assumptions/3.md). -/
def Obligations.DivWritesTheQuotient : Prop :=
  ∀ (s : State) (a b : Byte),
    (∀ rest, decode s.cfg (0xAB :: a :: b :: rest) = .ok (.div a b, rest)) ∧
    ChecksTwoOperands (.div a b) a b s ∧
    (a.toNat < 8 → b.toNat < 8 → Readable s [a, b] → (s.x b).toNat ≠ 0 →
      ∃ t, exec (.div a b) s = .next t ∧ (t.x a).toNat = (s.x a).toNat / (s.x b).toNat ∧
        t.pc = s.pc + 3 ∧ OnlyRegister s t a) ∧
    (a.toNat < 8 → b.toNat < 8 → Readable s [a, b] → (s.x b).toNat = 0 →
      ∃ t, exec (.div a b) s = .next t ∧ FaultTaken s t (.divisionByZero b))

/-- MOD (41_alu.md R143): the unsigned remainder; a zero divisor faults and writes nothing.
The clauses on unwritten registers rest on the model's UNWRITTEN_READS policy (notes/assumptions/3.md). -/
def Obligations.ModWritesTheRemainder : Prop :=
  ∀ (s : State) (a b : Byte),
    (∀ rest, decode s.cfg (0xAC :: a :: b :: rest) = .ok (.mod a b, rest)) ∧
    ChecksTwoOperands (.mod a b) a b s ∧
    (a.toNat < 8 → b.toNat < 8 → Readable s [a, b] → (s.x b).toNat ≠ 0 →
      ∃ t, exec (.mod a b) s = .next t ∧ (t.x a).toNat = (s.x a).toNat % (s.x b).toNat ∧
        t.pc = s.pc + 3 ∧ OnlyRegister s t a) ∧
    (a.toNat < 8 → b.toNat < 8 → Readable s [a, b] → (s.x b).toNat = 0 →
      ∃ t, exec (.mod a b) s = .next t ∧ FaultTaken s t (.divisionByZero b))

/-- The law of DIV and MOD (41_alu.md R143, R145): for a nonzero divisor the two instructions' results make up the
dividend, and the remainder is below the divisor. -/
def Obligations.QuotientAndRemainderMakeTheDividend : Prop :=
  ∀ (s t u : State) (a b : Byte), a.toNat < 8 → b.toNat < 8 → (s.x b).toNat ≠ 0 →
    exec (.div a b) s = .next t → t.run ≠ .faulted → exec (.mod a b) s = .next u → u.run ≠ .faulted →
    (t.x a).toNat * (s.x b).toNat + (u.x a).toNat = (s.x a).toNat ∧ (u.x a).toNat < (s.x b).toNat

/-- CMP (41_alu.md R144): E is set iff the registers are equal; G, L, every register and memory are kept.
The clauses on unwritten registers rest on the model's UNWRITTEN_READS policy (notes/assumptions/3.md). -/
def Obligations.CmpSetsEqualOnly : Prop :=
  ∀ (s : State) (a b : Byte),
    (∀ rest, decode s.cfg (0xA0 :: a :: b :: rest) = .ok (.cmp a b, rest)) ∧
    ChecksTwoOperands (.cmp a b) a b s ∧
    (a.toNat < 8 → b.toNat < 8 → Readable s [a, b] →
      ∃ t, exec (.cmp a b) s = .next t ∧ (t.fl.e = true ↔ s.x a = s.x b) ∧ t.fl.g = s.fl.g ∧ t.fl.l = s.fl.l ∧
        t.pc = s.pc + 3 ∧ RegsKept s t [] ∧ MemKept s t ∧ t.run = s.run ∧ t.out = s.out ∧ ControlKept s t)

/-! ## Register load, output and control -/

/-- LDI (42_handlers.md R170): the immediate is any byte and is not checked as a register index. -/
def Obligations.LdiWritesTheImmediate : Prop :=
  ∀ (s : State) (a v : Byte),
    (∀ rest, decode s.cfg (0x99 :: a :: v :: rest) = .ok (.ldi a v, rest)) ∧
    ChecksOneOperand (.ldi a v) a [] s ∧
    (a.toNat < 8 → ∃ t, exec (.ldi a v) s = .next t ∧ t.x a = v ∧ t.pc = s.pc + 3 ∧ OnlyRegister s t a)

/-- PRN (42_handlers.md R171).
The clauses on unwritten registers rest on the model's UNWRITTEN_READS policy (notes/assumptions/3.md). -/
def Obligations.PrnEmitsTheRegister : Prop :=
  ∀ (s : State) (a : Byte),
    (∀ rest, decode s.cfg (0x43 :: a :: rest) = .ok (.prn a, rest)) ∧
    ChecksOneOperand (.prn a) a [a] s ∧
    (a.toNat < 8 → Readable s [a] →
      ∃ t, exec (.prn a) s = .next t ∧ t.out = s.out ++ [s.x a] ∧ t.pc = s.pc + 2 ∧ RegsKept s t [] ∧
        MemKept s t ∧ t.fl = s.fl ∧ t.run = s.run ∧ ControlKept s t)

/-- HLT (42_handlers.md R172): pc is one past the HLT byte, nothing but pc and the run state changes, no exception, also
in the last byte of memory, and every later step request does nothing. -/
def Obligations.HltHalts : Prop :=
  (∀ (c : Config) rest, decode c (0x01 :: rest) = .ok (.hlt, rest)) ∧
  (∀ s : State, ∃ t, exec .hlt s = .next t ∧ t.run = .halted ∧ t.pc = s.pc + 1 ∧ RegsKept s t [] ∧ MemKept s t ∧
    t.fl = s.fl ∧ t.out = s.out ∧ ControlKept s t ∧ ∀ k, Reaches k t t) ∧
  (∀ s : State, s.run = .running → s.pc < s.cfg.memSize → s.byteAt s.pc = 0x01 →
    ∃ t, step s = .next t ∧ t.run = .halted ∧ t.pc = s.pc + 1 ∧ t.fault = s.fault)

/-- NOP (42_handlers.md R173): nothing but pc changes, no exception, and a step at a zero byte is a NOP. -/
def Obligations.NopOnlyAdvances : Prop :=
  (∀ (c : Config) rest, decode c (0x00 :: rest) = .ok (.nop, rest)) ∧
  (∀ s : State, ∃ t, exec .nop s = .next t ∧ t = { s with pc := s.pc + 1 }) ∧
  (∀ s : State, s.run = .running → s.pc < s.cfg.memSize → s.byteAt s.pc = 0x00 →
    step s = .next { s with ir := 0x00, pc := s.pc + 1 })

/-! ## Stack and control transfer -/

/-- PUSH (43_stack_and_calls.md R182): SP is decremented, then x[a], read after that, is stored at the new SP; SP at or
below STACK_LIMIT, then an address outside memory, faults.
The clauses on unwritten registers rest on the model's UNWRITTEN_READS policy (notes/assumptions/3.md). -/
def Obligations.PushStoresBelowSp : Prop :=
  ∀ (s : State) (a : Byte), Memory.wf s.mem →
    (∀ rest, decode s.cfg (0x4D :: a :: rest) = .ok (.push a, rest)) ∧
    ChecksOneOperand (.push a) a [7, a] s ∧
    (a.toNat < 8 → Readable s [7, a] →
      (s.sp.toNat ≤ s.cfg.stackLimit → ∃ t, exec (.push a) s = .next t ∧ FaultTaken s t (.stackOverflow s.sp)) ∧
      (s.cfg.stackLimit < s.sp.toNat → s.cfg.memSize ≤ s.sp.toNat - 1 →
        ∃ t, exec (.push a) s = .next t ∧ FaultTaken s t (.addressOutOfBounds (s.sp.toNat - 1))) ∧
      (s.cfg.stackLimit < s.sp.toNat → s.sp.toNat - 1 < s.cfg.memSize →
        ∃ t, exec (.push a) s = .next t ∧ t.sp.toNat + 1 = s.sp.toNat ∧ t.isWritten 7 = true ∧
          t.byteAt (s.sp.toNat - 1) = (if a = 7 then t.sp else s.x a) ∧ t.pc = s.pc + 2 ∧
          RegsKept s t [7] ∧ MemKeptBut s t (s.sp.toNat - 1) ∧ OthersKept s t))

/-- POP (43_stack_and_calls.md R183): x[a] takes the byte at SP, after SP's increment; for a = 7 the popped byte is what
SP ends with. SP at or above 0xF4, then an address outside memory, faults. The destination is not read.
The clauses on unwritten registers rest on the model's UNWRITTEN_READS policy (notes/assumptions/3.md). -/
def Obligations.PopLoadsFromSp : Prop :=
  ∀ (s : State) (a : Byte),
    (∀ rest, decode s.cfg (0x4C :: a :: rest) = .ok (.pop a, rest)) ∧
    ChecksOneOperand (.pop a) a [7] s ∧
    (a.toNat < 8 → Readable s [7] →
      (0xF4 ≤ s.sp.toNat → ∃ t, exec (.pop a) s = .next t ∧ FaultTaken s t (.stackUnderflow s.sp)) ∧
      (s.sp.toNat < 0xF4 → s.cfg.memSize ≤ s.sp.toNat →
        ∃ t, exec (.pop a) s = .next t ∧ FaultTaken s t (.addressOutOfBounds s.sp.toNat)) ∧
      (s.sp.toNat < 0xF4 → s.sp.toNat < s.cfg.memSize →
        ∃ t, exec (.pop a) s = .next t ∧ t.x a = s.byteAt s.sp.toNat ∧
          (a ≠ 7 → t.sp.toNat = s.sp.toNat + 1) ∧ t.isWritten a = true ∧ t.isWritten 7 = true ∧ t.pc = s.pc + 2 ∧
          RegsKept s t [7, a] ∧ MemKept s t ∧ OthersKept s t))

/-- CALL (43_stack_and_calls.md R184): the return address is checked first, then the push; the target is read after the
push, so CALL R7 jumps to the decremented SP.
The clauses on unwritten registers rest on the model's UNWRITTEN_READS policy (notes/assumptions/3.md). -/
def Obligations.CallPushesTheReturnAddress : Prop :=
  ∀ (s : State) (a : Byte), s.cfg.Valid → Memory.wf s.mem →
    (∀ rest, decode s.cfg (0x48 :: a :: rest) = .ok (.call a, rest)) ∧
    ChecksOneOperand (.call a) a [7, a] s ∧
    (a.toNat < 8 → Readable s [7, a] →
      (s.cfg.memSize ≤ s.pc + 2 → ∃ t, exec (.call a) s = .next t ∧ FaultTaken s t (.addressOutOfBounds (s.pc + 2))) ∧
      (s.pc + 2 < s.cfg.memSize → s.sp.toNat ≤ s.cfg.stackLimit →
        ∃ t, exec (.call a) s = .next t ∧ FaultTaken s t (.stackOverflow s.sp)) ∧
      (s.pc + 2 < s.cfg.memSize → s.cfg.stackLimit < s.sp.toNat → s.cfg.memSize ≤ s.sp.toNat - 1 →
        ∃ t, exec (.call a) s = .next t ∧ FaultTaken s t (.addressOutOfBounds (s.sp.toNat - 1))) ∧
      (s.pc + 2 < s.cfg.memSize → s.cfg.stackLimit < s.sp.toNat → s.sp.toNat - 1 < s.cfg.memSize →
        ∃ t, exec (.call a) s = .next t ∧ t.sp.toNat + 1 = s.sp.toNat ∧ t.isWritten 7 = true ∧
          (t.byteAt (s.sp.toNat - 1)).toNat = s.pc + 2 ∧ t.pc = (if a = 7 then t.sp else s.x a).toNat ∧
          RegsKept s t [7] ∧ MemKeptBut s t (s.sp.toNat - 1) ∧ OthersKept s t))

/-- RET (43_stack_and_calls.md R185): pc takes the byte at SP, any value 0..255, and SP is incremented.
The clauses on unwritten registers rest on the model's UNWRITTEN_READS policy (notes/assumptions/3.md). -/
def Obligations.RetJumpsToThePoppedByte : Prop :=
  (∀ (c : Config) rest, decode c (0x09 :: rest) = .ok (.ret, rest)) ∧
  ∀ s : State,
    (FaultsOnRead s 7 → ∃ t, exec .ret s = .next t ∧ FaultTaken s t (.unwrittenRegisterRead 7)) ∧
    (Readable s [7] →
      (0xF4 ≤ s.sp.toNat → ∃ t, exec .ret s = .next t ∧ FaultTaken s t (.stackUnderflow s.sp)) ∧
      (s.sp.toNat < 0xF4 → s.cfg.memSize ≤ s.sp.toNat →
        ∃ t, exec .ret s = .next t ∧ FaultTaken s t (.addressOutOfBounds s.sp.toNat)) ∧
      (s.sp.toNat < 0xF4 → s.sp.toNat < s.cfg.memSize →
        ∃ t, exec .ret s = .next t ∧ t.pc = (s.byteAt s.sp.toNat).toNat ∧ t.sp.toNat = s.sp.toNat + 1 ∧
          t.isWritten 7 = true ∧ RegsKept s t [7] ∧ MemKept s t ∧ OthersKept s t))

/-- The round trip (43_stack_and_calls.md R186, item 1): PUSH Ra then POP Ra, a not 7, on a stack inside its region leaves
every register as it was, and the byte at SP - 1 holds x[a].
The clauses on unwritten registers rest on the model's UNWRITTEN_READS policy (notes/assumptions/3.md). -/
def Obligations.PushThenPopRestores : Prop :=
  ∀ (s : State) (a : Byte), Memory.wf s.mem → a.toNat < 8 → a ≠ 7 → Readable s [7, a] →
    s.cfg.stackLimit < s.sp.toNat → s.sp.toNat ≤ 0xF4 → s.sp.toNat - 1 < s.cfg.memSize →
    ∃ t u, exec (.push a) s = .next t ∧ exec (.pop a) t = .next u ∧ (∀ r : Byte, r.toNat < 8 → u.x r = s.x r) ∧
      u.byteAt (s.sp.toNat - 1) = s.x a ∧ MemKeptBut s u (s.sp.toNat - 1) ∧ u.pc = s.pc + 4 ∧ OthersKept s u

/-- The exception to the round trip (43_stack_and_calls.md R186, item 2): PUSH R7 then POP R7 leaves SP one lower.
The clauses on unwritten registers rest on the model's UNWRITTEN_READS policy (notes/assumptions/3.md). -/
def Obligations.PushThenPopOfSpLowersSp : Prop :=
  ∀ s : State, Memory.wf s.mem → Readable s [7] → s.cfg.stackLimit < s.sp.toNat → s.sp.toNat ≤ 0xF4 →
    s.sp.toNat - 1 < s.cfg.memSize →
    ∃ t u, exec (.push 7) s = .next t ∧ exec (.pop 7) t = .next u ∧ u.sp.toNat + 1 = s.sp.toNat

/-- CALL and RET (43_stack_and_calls.md R186, item 3): after a CALL at address p, a RET in any later state with SP and the
byte at SP as the CALL left them resumes at p + 2 with SP as before the CALL.
The clauses on unwritten registers rest on the model's UNWRITTEN_READS policy (notes/assumptions/3.md). -/
def Obligations.CallThenRetResumes : Prop :=
  ∀ (s u : State) (a : Byte), s.cfg.Valid → Memory.wf s.mem → a.toNat < 8 → Readable s [7, a] →
    s.pc + 2 < s.cfg.memSize → s.cfg.stackLimit < s.sp.toNat → s.sp.toNat ≤ 0xF4 → s.sp.toNat - 1 < s.cfg.memSize →
    ∃ t, exec (.call a) s = .next t ∧ t.run = s.run ∧
      (u.cfg = t.cfg → u.sp = t.sp → u.byteAt t.sp.toNat = t.byteAt t.sp.toNat → Readable u [7] →
        ∃ v, exec .ret u = .next v ∧ v.pc = s.pc + 2 ∧ v.sp = s.sp ∧ v.run = u.run)

/-- A pushed byte is what every later fetch reads (20_memory.md R63). After a step that pushed, by PUSH or CALL, the byte
at SP is the pushed one: the register's value or the decremented SP, or the return address. In any later state with the
same parameters whose byte there nothing has overwritten, it is the opcode a step at that address fetches, and the
operand byte an instruction one or two bytes below takes. The pushing step itself ran the opcode and the operand byte
that were there before its write. -/
def Obligations.LaterFetchSeesThePush : Prop :=
  ∀ (s t : State) (v : Byte), s.cfg.Valid → Memory.wf s.mem → s.run = .running → s.pc + 1 < s.cfg.memSize →
    step s = .next t → t.run = .running →
    (s.byteAt s.pc = 0x4D ∧ v = (if s.byteAt (s.pc + 1) = 7 then t.sp else s.x (s.byteAt (s.pc + 1))) ∨
      s.byteAt s.pc = 0x48 ∧ v = BitVec.ofNat 8 (s.pc + 2)) →
    t.byteAt t.sp.toNat = v ∧ t.ir = s.byteAt s.pc ∧
    (s.byteAt s.pc = 0x48 → t.pc = (if s.byteAt (s.pc + 1) = 7 then t.sp else s.x (s.byteAt (s.pc + 1))).toNat) ∧
    ∀ u : State, u.run = .running → u.cfg = t.cfg → u.byteAt t.sp.toNat = t.byteAt t.sp.toNat →
      (u.pc = t.sp.toNat → ∃ w, step u = .next w ∧ w.ir = v) ∧
      (∀ h, dispatch u.cfg (u.byteAt u.pc) = some h → u.pc + (u.byteAt u.pc).toNat / 64 < u.cfg.memSize →
        (u.pc + 1 = t.sp.toNat →
          step u = exec (h.instr v (u.byteAt (u.pc + 2))) { u with ir := u.byteAt u.pc }) ∧
        (u.pc + 2 = t.sp.toNat →
          step u = exec (h.instr (u.byteAt (u.pc + 1)) v) { u with ir := u.byteAt u.pc }))

/-! ## Memory -/

/-- The memory primitives (20_memory.md R51): an address outside memory faults with it; inside, a read gives the byte, and
a write makes that byte what later reads give and no other. -/
def Obligations.MemoryPrimitivesCheckBounds : Prop :=
  ∀ (s : State) (a : Nat) (v : Byte), Memory.wf s.mem →
    (s.cfg.memSize ≤ a → s.memRead a = .error (.addressOutOfBounds a) ∧
      s.memWrite a v = .error (.addressOutOfBounds a)) ∧
    (a < s.cfg.memSize → s.memRead a = .ok (s.byteAt a) ∧
      ∃ t, s.memWrite a v = .ok t ∧ t.memRead a = .ok v ∧ MemKeptBut s t a ∧ Memory.wf t.mem ∧
        t = { s with mem := t.mem })

/-- In canonical form, equal contents are equal data (the model's representation, notes/assumptions/9.md). -/
def Obligations.EqualContentsAreEqualMemories : Prop :=
  ∀ m n : Memory, Memory.wf m → Memory.wf n → (∀ a, Memory.read m a = Memory.read n a) → m = n

/-! ## Reset, boot and ports -/

/-- Reset (70_reset_and_hazards.md R230): from any run state, with any draw for the values the spec leaves unspecified, the
core takes the reset values, and memory is not changed; no step leaves HALTED or FAULTED. -/
def Obligations.ResetSetsTheCoreState : Prop :=
  ∀ (d : ResetDraw) (s : State),
    (s.coreReset d).sp = 0xF4 ∧ (s.coreReset d).pc = s.cfg.resetPc ∧
    (∀ r : Byte, r.toNat < 7 → (s.coreReset d).isWritten r = false) ∧ (s.coreReset d).isWritten 7 = true ∧
    (∀ k : Fin 7, (s.coreReset d).x (BitVec.ofNat 8 k) = d.regs[k]) ∧ (s.coreReset d).fl = d.fl ∧
    (s.coreReset d).run = .running ∧ (s.coreReset d).fault = none ∧ (s.coreReset d).out = [] ∧
    (s.coreReset d).mem = s.mem ∧ (s.coreReset d).ir = d.ir ∧ (s.run ≠ .running → step s = .next s)

/-- The named reset state is the reset of a core with the default parameters and freshly built memory, at the zero draw:
the values of R0-R6, IR and FL in it are the model's choice (notes/assumptions/2.md, 4.md, 5.md). -/
def Obligations.NamedResetIsTheZeroDraw : Prop :=
  State.reset = boot Config.default ResetDraw.zero [] ∧
    ∀ s : State, s.cfg = Config.default → s.mem = [] → s.coreReset ResetDraw.zero = State.reset

/-- Boot (70_reset_and_hazards.md R232; 20_memory.md R52): after the loader and reset, memory holds the program from
RESET_PC on and 0 everywhere else, the invariant holds, and the first step fetches the program's first byte. That the
program is one block upward from RESET_PC is the model's choice (notes/assumptions/19.md): 20_memory.md R57 leaves the
place of its bytes open. -/
def Obligations.BootLoadsTheProgram : Prop :=
  ∀ (c : Config) (d : ResetDraw) (program : List Byte), c.Valid → c.resetPc + program.length ≤ c.memSize →
    Inv (boot c d program) ∧
    (∀ k (h : k < program.length), (boot c d program).byteAt (c.resetPc + k) = program[k]) ∧
    (∀ a, a < c.resetPc ∨ c.resetPc + program.length ≤ a → (boot c d program).byteAt a = 0) ∧
    ∀ op vs, program = op :: vs → ∃ t, step (boot c d program) = .next t ∧ t.ir = op

/-- FL's layout (10_state.md R32): E is bit 0, G bit 1, L bit 2, and bits 7:3 read as 0. -/
def Obligations.FlagsByteLayout : Prop :=
  ∀ f : Flags, f.toByte.getLsbD 0 = f.e ∧ f.toByte.getLsbD 1 = f.g ∧ f.toByte.getLsbD 2 = f.l ∧
    ∀ k, 3 ≤ k → k < 8 → f.toByte.getLsbD k = false

/-- The status port after a step of a core with an empty record (10_state.md R44; 60_exceptions.md R201, R210): 0 while
RUNNING, 1 when HALTED, 2 when FAULTED (92_eei_decisions.md D2); after a fault the code and the info of its kind and the
pc of the faulting instruction, else kind 0. That fault_info and fault_pc are none with no fault is the model's choice
(notes/assumptions/12.md). -/
def Obligations.StatusPortReportsTheFault : Prop :=
  ∀ s t : State, s.run = .running → s.fault = none → step s = .next t →
    (t.run = .running → t.statusPort = ⟨0, 0, none, none⟩) ∧
    (t.run = .halted → t.statusPort = ⟨1, 0, none, none⟩) ∧
    (t.run = .faulted → ∃ c, t.fault = some ⟨c, s.pc⟩ ∧
      match c with
      | .unknownOpcode op => t.statusPort = ⟨2, 1, some op.toNat, some s.pc⟩
      | .divisionByZero b => t.statusPort = ⟨2, 2, some b.toNat, some s.pc⟩
      | .addressOutOfBounds addr => t.statusPort = ⟨2, 3, some addr, some s.pc⟩
      | .stackOverflow sp => t.statusPort = ⟨2, 4, some sp.toNat, some s.pc⟩
      | .stackUnderflow sp => t.statusPort = ⟨2, 5, some sp.toNat, some s.pc⟩
      | .invalidRegisterIndex b => t.statusPort = ⟨2, 6, some b.toNat, some s.pc⟩
      | .arithmeticOverflow v => t.statusPort = ⟨2, 7, some v, some s.pc⟩
      | .unwrittenRegisterRead r => t.statusPort = ⟨2, 8, some r.toNat, some s.pc⟩)

/-- The output port (10_state.md R43): a step pulses once with the value printed if it is a PRN that completes, else not at
all, and `out` takes exactly the pulses. -/
def Obligations.OutputPortPulsesOncePerPrn : Prop :=
  ∀ s t : State, step s = .next t → t.out = s.out ++ s.stepOutput.toList

/-- Rendering (42_handlers.md R174): each element of the output is one line, its decimal digits, with no leading zero
unless it is the one digit 0, then LF. -/
def Obligations.OutputRendersInDecimal : Prop :=
  renderOut [] = [] ∧ (∀ v rest, renderOut (v :: rest) = renderLine v ++ renderOut rest) ∧
  ∀ v : Byte, ∃ digits : List Char, renderLine v = digits ++ [Char.ofNat 0x0A] ∧
    (∀ ch ∈ digits, '0' ≤ ch ∧ ch ≤ '9') ∧
    digits.foldl (fun n ch => 10 * n + (ch.toNat - '0'.toNat)) 0 = v.toNat ∧
    (v = 0 → digits = ['0']) ∧ (v ≠ 0 → digits.head? ≠ some '0')

/-- The memory port (10_state.md R42; 20_memory.md R51, R53, R56, R60): every access of a step is below MEM_SIZE, the
first is the opcode's, and the memory after the step is the memory before it with the writes applied in order. -/
def Obligations.MemoryPortTellsTheStep : Prop :=
  ∀ s t : State, step s = .next t →
    (∀ acc ∈ s.stepAccesses, match acc with
      | .read addr => addr < s.cfg.memSize
      | .write addr _ => addr < s.cfg.memSize) ∧
    (s.run = .running → s.pc < s.cfg.memSize → s.stepAccesses.head? = some (.read s.pc)) ∧
    (s.run ≠ .running ∨ s.cfg.memSize ≤ s.pc → s.stepAccesses = []) ∧
    t.mem = s.stepAccesses.foldl Memory.apply s.mem

/-- The ends of a run (70_reset_and_hazards.md R234): every run is finished or failed after some number of steps, or a
hang, and never two of these; a finished or failed run stays as it is. -/
def Obligations.EveryRunEndsOrHangs : Prop :=
  ∀ s : State,
    (Hang s ∨ ∃ k t, Reaches k s t ∧ (Finished t ∨ Failed t)) ∧
    (∀ k t, Reaches k s t → Finished t ∨ Failed t → ¬ Hang s) ∧
    ∀ k t n u, Reaches k s t → Finished t ∨ Failed t → Reaches (k + n) s u → u = t
end

