-- ==== Sys2Proof/Laws/State.lean ====
section
/-! SUPPORT. One lemma per field per update of State, and what the accessors read after an update, so that no later
proof unfolds a record update. -/

namespace Sys2Proof.Machine

variable (s : State)

/-! ## setX -/

@[simp] theorem setX_pc (a v : Byte) : (s.setX a v).pc = s.pc := rfl
@[simp] theorem setX_ir (a v : Byte) : (s.setX a v).ir = s.ir := rfl
@[simp] theorem setX_fl (a v : Byte) : (s.setX a v).fl = s.fl := rfl
@[simp] theorem setX_run (a v : Byte) : (s.setX a v).run = s.run := rfl
@[simp] theorem setX_fault (a v : Byte) : (s.setX a v).fault = s.fault := rfl
@[simp] theorem setX_out (a v : Byte) : (s.setX a v).out = s.out := rfl
@[simp] theorem setX_mem (a v : Byte) : (s.setX a v).mem = s.mem := rfl
@[simp] theorem setX_cfg (a v : Byte) : (s.setX a v).cfg = s.cfg := rfl

@[simp] theorem setX_byteAt (a v : Byte) (i : Nat) : (s.setX a v).byteAt i = s.byteAt i := rfl

/-! ## setByte -/

@[simp] theorem setByte_regs (addr : Nat) (v : Byte) : (s.setByte addr v).regs = s.regs := rfl
@[simp] theorem setByte_written (addr : Nat) (v : Byte) : (s.setByte addr v).written = s.written := rfl
@[simp] theorem setByte_pc (addr : Nat) (v : Byte) : (s.setByte addr v).pc = s.pc := rfl
@[simp] theorem setByte_ir (addr : Nat) (v : Byte) : (s.setByte addr v).ir = s.ir := rfl
@[simp] theorem setByte_fl (addr : Nat) (v : Byte) : (s.setByte addr v).fl = s.fl := rfl
@[simp] theorem setByte_run (addr : Nat) (v : Byte) : (s.setByte addr v).run = s.run := rfl
@[simp] theorem setByte_fault (addr : Nat) (v : Byte) : (s.setByte addr v).fault = s.fault := rfl
@[simp] theorem setByte_out (addr : Nat) (v : Byte) : (s.setByte addr v).out = s.out := rfl
@[simp] theorem setByte_mem (addr : Nat) (v : Byte) : (s.setByte addr v).mem = Memory.write s.mem addr v := rfl
@[simp] theorem setByte_cfg (addr : Nat) (v : Byte) : (s.setByte addr v).cfg = s.cfg := rfl

@[simp] theorem setByte_x (addr : Nat) (v : Byte) (r : Byte) : (s.setByte addr v).x r = s.x r := rfl
@[simp] theorem setByte_isWritten (addr : Nat) (v : Byte) (r : Byte) : (s.setByte addr v).isWritten r = s.isWritten r := rfl

/-! ## setEqual -/

@[simp] theorem setEqual_regs (e : Bool) : (s.setEqual e).regs = s.regs := rfl
@[simp] theorem setEqual_written (e : Bool) : (s.setEqual e).written = s.written := rfl
@[simp] theorem setEqual_pc (e : Bool) : (s.setEqual e).pc = s.pc := rfl
@[simp] theorem setEqual_ir (e : Bool) : (s.setEqual e).ir = s.ir := rfl
@[simp] theorem setEqual_fl (e : Bool) : (s.setEqual e).fl = { s.fl with e := e } := rfl
@[simp] theorem setEqual_run (e : Bool) : (s.setEqual e).run = s.run := rfl
@[simp] theorem setEqual_fault (e : Bool) : (s.setEqual e).fault = s.fault := rfl
@[simp] theorem setEqual_out (e : Bool) : (s.setEqual e).out = s.out := rfl
@[simp] theorem setEqual_mem (e : Bool) : (s.setEqual e).mem = s.mem := rfl
@[simp] theorem setEqual_cfg (e : Bool) : (s.setEqual e).cfg = s.cfg := rfl

@[simp] theorem setEqual_x (e : Bool) (r : Byte) : (s.setEqual e).x r = s.x r := rfl
@[simp] theorem setEqual_isWritten (e : Bool) (r : Byte) : (s.setEqual e).isWritten r = s.isWritten r := rfl
@[simp] theorem setEqual_byteAt (e : Bool) (i : Nat) : (s.setEqual e).byteAt i = s.byteAt i := rfl

/-! ## emit -/

@[simp] theorem emit_regs (v : Byte) : (s.emit v).regs = s.regs := rfl
@[simp] theorem emit_written (v : Byte) : (s.emit v).written = s.written := rfl
@[simp] theorem emit_pc (v : Byte) : (s.emit v).pc = s.pc := rfl
@[simp] theorem emit_ir (v : Byte) : (s.emit v).ir = s.ir := rfl
@[simp] theorem emit_fl (v : Byte) : (s.emit v).fl = s.fl := rfl
@[simp] theorem emit_run (v : Byte) : (s.emit v).run = s.run := rfl
@[simp] theorem emit_fault (v : Byte) : (s.emit v).fault = s.fault := rfl
@[simp] theorem emit_out (v : Byte) : (s.emit v).out = s.out ++ [v] := rfl
@[simp] theorem emit_mem (v : Byte) : (s.emit v).mem = s.mem := rfl
@[simp] theorem emit_cfg (v : Byte) : (s.emit v).cfg = s.cfg := rfl

@[simp] theorem emit_x (v : Byte) (r : Byte) : (s.emit v).x r = s.x r := rfl
@[simp] theorem emit_isWritten (v : Byte) (r : Byte) : (s.emit v).isWritten r = s.isWritten r := rfl
@[simp] theorem emit_byteAt (v : Byte) (i : Nat) : (s.emit v).byteAt i = s.byteAt i := rfl

/-! ## latchIR -/

@[simp] theorem latchIR_regs (op : Byte) : (s.latchIR op).regs = s.regs := rfl
@[simp] theorem latchIR_written (op : Byte) : (s.latchIR op).written = s.written := rfl
@[simp] theorem latchIR_pc (op : Byte) : (s.latchIR op).pc = s.pc := rfl
@[simp] theorem latchIR_ir (op : Byte) : (s.latchIR op).ir = op := rfl
@[simp] theorem latchIR_fl (op : Byte) : (s.latchIR op).fl = s.fl := rfl
@[simp] theorem latchIR_run (op : Byte) : (s.latchIR op).run = s.run := rfl
@[simp] theorem latchIR_fault (op : Byte) : (s.latchIR op).fault = s.fault := rfl
@[simp] theorem latchIR_out (op : Byte) : (s.latchIR op).out = s.out := rfl
@[simp] theorem latchIR_mem (op : Byte) : (s.latchIR op).mem = s.mem := rfl
@[simp] theorem latchIR_cfg (op : Byte) : (s.latchIR op).cfg = s.cfg := rfl

@[simp] theorem latchIR_x (op : Byte) (r : Byte) : (s.latchIR op).x r = s.x r := rfl
@[simp] theorem latchIR_isWritten (op : Byte) (r : Byte) : (s.latchIR op).isWritten r = s.isWritten r := rfl
@[simp] theorem latchIR_byteAt (op : Byte) (i : Nat) : (s.latchIR op).byteAt i = s.byteAt i := rfl

/-! ## takeFault -/

@[simp] theorem takeFault_regs (c : FaultCause) : (s.takeFault c).regs = s.regs := rfl
@[simp] theorem takeFault_written (c : FaultCause) : (s.takeFault c).written = s.written := rfl
@[simp] theorem takeFault_pc (c : FaultCause) : (s.takeFault c).pc = s.pc := rfl
@[simp] theorem takeFault_ir (c : FaultCause) : (s.takeFault c).ir = s.ir := rfl
@[simp] theorem takeFault_fl (c : FaultCause) : (s.takeFault c).fl = s.fl := rfl
@[simp] theorem takeFault_run (c : FaultCause) : (s.takeFault c).run = .faulted := rfl
@[simp] theorem takeFault_fault (c : FaultCause) : (s.takeFault c).fault = some ⟨c, s.pc⟩ := rfl
@[simp] theorem takeFault_out (c : FaultCause) : (s.takeFault c).out = s.out := rfl
@[simp] theorem takeFault_mem (c : FaultCause) : (s.takeFault c).mem = s.mem := rfl
@[simp] theorem takeFault_cfg (c : FaultCause) : (s.takeFault c).cfg = s.cfg := rfl

@[simp] theorem takeFault_x (c : FaultCause) (r : Byte) : (s.takeFault c).x r = s.x r := rfl
@[simp] theorem takeFault_isWritten (c : FaultCause) (r : Byte) : (s.takeFault c).isWritten r = s.isWritten r := rfl
@[simp] theorem takeFault_byteAt (c : FaultCause) (i : Nat) : (s.takeFault c).byteAt i = s.byteAt i := rfl

/-! ## The registers after a register write -/

theorem x_setX_self {a : Byte} (h : a.toNat < 8) (v : Byte) : (s.setX a v).x a = v := by
  simp [State.x, State.setX, h]

theorem x_setX_ne {a c : Byte} (h : a ≠ c) (v : Byte) : (s.setX a v).x c = s.x c := by
  have : a.toNat ≠ c.toNat := fun e => h (BitVec.eq_of_toNat_eq e)
  simp [State.x, State.setX, this]

theorem isWritten_setX_self {a : Byte} (h : a.toNat < 8) (v : Byte) : (s.setX a v).isWritten a = true := by
  simp [State.isWritten, State.setX, h]

theorem isWritten_setX_ne {a c : Byte} (h : a ≠ c) (v : Byte) : (s.setX a v).isWritten c = s.isWritten c := by
  have : a.toNat ≠ c.toNat := fun e => h (BitVec.eq_of_toNat_eq e)
  simp [State.isWritten, State.setX, this]

/-- No write makes a written register unwritten. -/
theorem isWritten_setX_of_isWritten {a c : Byte} (v : Byte) (h : s.isWritten c = true) :
    (s.setX a v).isWritten c = true := by
  by_cases e : a = c
  · subst e
    by_cases h8 : a.toNat < 8
    · exact isWritten_setX_self s h8 v
    · simp [State.isWritten, h8] at h
  · rw [isWritten_setX_ne s e]; exact h

@[simp] theorem sp_setX_seven (v : Byte) : (s.setX 7 v).x 7 = v := x_setX_self s (by decide) v

/-! ## ADVANCE, field by field -/

@[simp] theorem advance_next (n : Nat) (s' : State) : advance n s (.next s') = { s' with pc := s.pc + n + 1 } := rfl
@[simp] theorem advance_jump (n : Nat) (s' : State) (t : Byte) :
    advance n s (.jump s' t) = { s' with pc := t.toNat } := rfl
@[simp] theorem advance_halt (n : Nat) (s' : State) :
    advance n s (.halt s') = { s' with pc := s.pc + n + 1, run := .halted } := rfl
@[simp] theorem advance_raise (n : Nat) (c : FaultCause) : advance n s (.raise c) = s.takeFault c := rfl

@[simp] theorem x_withPc (p : Nat) (r : Byte) : ({ s with pc := p } : State).x r = s.x r := rfl
@[simp] theorem isWritten_withPc (p : Nat) (r : Byte) : ({ s with pc := p } : State).isWritten r = s.isWritten r := rfl
@[simp] theorem byteAt_withPc (p i : Nat) : ({ s with pc := p } : State).byteAt i = s.byteAt i := rfl
@[simp] theorem x_withPcRun (p : Nat) (q : RunState) (r : Byte) :
    ({ s with pc := p, run := q } : State).x r = s.x r := rfl
@[simp] theorem isWritten_withPcRun (p : Nat) (q : RunState) (r : Byte) :
    ({ s with pc := p, run := q } : State).isWritten r = s.isWritten r := rfl
@[simp] theorem byteAt_withPcRun (p i : Nat) (q : RunState) :
    ({ s with pc := p, run := q } : State).byteAt i = s.byteAt i := rfl

end Sys2Proof.Machine
end

