-- ==== Sys2Proof/Laws/Memory.lean ====
section
/-! SUPPORT. The laws of memory: a read after a write, that every memory operation keeps the canonical form, and that
in canonical form equal contents are equal data. -/

namespace Sys2Proof.Machine

namespace Memory

theorem read_eq_zero_of_lt {m : Memory} {a : Nat} (h : ∀ p ∈ m, a < p.1) : read m a = 0 := by
  induction m with
  | nil => rfl
  | cons q m ih =>
    have := h q (by simp)
    rw [read, if_neg (by omega)]
    exact ih fun p hp => h p (by simp [hp])

/-- A sorted memory reads 0 below its first entry. -/
theorem read_tail_head {q : Host.Cell} {m : Memory} (h : wf (q :: m)) : read m q.1 = 0 :=
  read_eq_zero_of_lt fun _ hp => List.rel_of_pairwise_cons h.1 hp

theorem wf_tail {q : Host.Cell} {m : Memory} (h : wf (q :: m)) : wf m :=
  ⟨h.1.of_cons, fun p hp => h.2 p (by simp [hp])⟩

theorem read_write_self {m : Memory} (h : wf m) (a : Nat) (v : Byte) : read (write m a v) a = v := by
  induction m with
  | nil =>
    rw [write]
    split
    · rename_i hv
      exact hv.symm
    · simp [read]
  | cons q m ih =>
    obtain ⟨b, w⟩ := q
    unfold write
    split
    · rename_i hab
      split
      · rename_i hv
        subst hv
        apply read_eq_zero_of_lt
        intro p hp
        rcases List.mem_cons.1 hp with rfl | hp
        · exact hab
        · exact Nat.lt_trans hab (List.rel_of_pairwise_cons h.1 hp)
      · simp [read]
    · split
      · rename_i hab
        subst hab
        split
        · rename_i hv
          subst hv
          exact read_tail_head h
        · simp [read]
      · rename_i hab
        rw [read, if_neg hab]
        exact ih (wf_tail h)

theorem read_write_ne (m : Memory) {a c : Nat} (hc : c ≠ a) (v : Byte) : read (write m a v) c = read m c := by
  induction m with
  | nil =>
    rw [write]
    split <;> simp [read, hc]
  | cons q m ih =>
    obtain ⟨b, w⟩ := q
    unfold write
    split
    · split
      · rfl
      · rw [read, if_neg hc]
    · split
      · rename_i hab
        subst hab
        split <;> simp [read, hc]
      · rw [read, read, ih]

/-- An address of the written memory was there before, or is the one written, which then holds no 0. -/
theorem mem_of_mem_write {m : Memory} {a : Nat} {v : Byte} {p : Host.Cell} (hp : p ∈ write m a v) :
    p ∈ m ∨ (p = (a, v) ∧ v ≠ 0) := by
  induction m with
  | nil =>
    by_cases hv : v = 0
    · simp [write, hv] at hp
    · simp only [write, hv, if_false, List.mem_singleton] at hp
      exact .inr ⟨hp, hv⟩
  | cons q m ih =>
    obtain ⟨b, w⟩ := q
    unfold write at hp
    split at hp
    · split at hp
      · exact .inl hp
      · rename_i hv
        rcases List.mem_cons.1 hp with h | h
        · exact .inr ⟨h, hv⟩
        · exact .inl h
    · split at hp
      · split at hp
        · exact .inl (by simp [hp])
        · rename_i hv
          rcases List.mem_cons.1 hp with h | h
          · exact .inr ⟨h, hv⟩
          · exact .inl (by simp [h])
      · rcases List.mem_cons.1 hp with h | h
        · exact .inl (by simp [h])
        · rcases ih h with h | h
          · exact .inl (by simp [h])
          · exact .inr h

/-- A write keeps the canonical form. -/
theorem wf_write {m : Memory} (h : wf m) (a : Nat) (v : Byte) : wf (write m a v) := by
  refine ⟨?_, fun p hp => ?_⟩
  · induction m with
    | nil =>
      rw [write]
      split <;> simp
    | cons q m ih =>
      obtain ⟨b, w⟩ := q
      have hlt := fun p hp => List.rel_of_pairwise_cons h.1 (a' := p) hp
      unfold write
      split
      · rename_i hab
        split
        · exact h.1
        · refine List.pairwise_cons.2 ⟨fun p hp => ?_, h.1⟩
          rcases List.mem_cons.1 hp with rfl | hp
          · exact hab
          · exact Nat.lt_trans hab (hlt p hp)
      · split
        · rename_i hab
          subst hab
          split
          · exact h.1.of_cons
          · exact List.pairwise_cons.2 ⟨hlt, h.1.of_cons⟩
        · rename_i h1 h2
          refine List.pairwise_cons.2 ⟨fun p hp => ?_, ih (wf_tail h)⟩
          rcases mem_of_mem_write hp with hp | ⟨rfl, -⟩
          · exact hlt p hp
          · show b < a
            omega
  · rcases mem_of_mem_write hp with hp | ⟨rfl, hv⟩
    · exact h.2 p hp
    · exact hv

/-- A write inside the address space lists no address outside it. -/
theorem within_write {m : Memory} {n : Nat} (h : within n m) {a : Nat} (ha : a < n) (v : Byte) :
    within n (write m a v) := fun p hp => by
  rcases mem_of_mem_write hp with hp | ⟨rfl, -⟩
  · exact h p hp
  · exact ha

/-- A read gives a listed byte or 0. -/
theorem read_of_mem {m : Memory} (h : wf m) {p : Host.Cell} (hp : p ∈ m) : read m p.1 = p.2 := by
  induction m with
  | nil => simp at hp
  | cons q m ih =>
    rcases List.mem_cons.1 hp with rfl | hp
    · simp [read]
    · have := List.rel_of_pairwise_cons h.1 hp
      rw [read, if_neg (by omega)]
      exact ih (wf_tail h) hp

end Memory

/-- A state's byte after a store to it. -/
theorem byteAt_setByte_self {s : State} (h : Memory.wf s.mem) (a : Nat) (v : Byte) : (s.setByte a v).byteAt a = v :=
  Memory.read_write_self h a v

/-- A state's other bytes after a store. -/
theorem byteAt_setByte_ne (s : State) {a c : Nat} (h : c ≠ a) (v : Byte) : (s.setByte a v).byteAt c = s.byteAt c :=
  Memory.read_write_ne s.mem h v

end Sys2Proof.Machine
end

