-- ==== Sys2Proof/Laws/Boot.lean ====
section
/-! SUPPORT. What the loader leaves in memory (spec/20_memory.md R52). -/

namespace Sys2Proof.Machine

theorem load_cfg (vs : List Byte) : ∀ (s : State) (a : Nat), (s.load a vs).cfg = s.cfg := by
  induction vs with
  | nil => exact fun _ _ => rfl
  | cons v vs ih =>
    intro s a
    rw [State.load, ih]
    split <;> rfl

/-- Bytes loaded inside memory are there afterwards, every other byte is as before, and memory stays in canonical form
inside the address space. -/
theorem load_spec (vs : List Byte) : ∀ (s : State) (a : Nat), Memory.wf s.mem →
    Memory.within s.cfg.memSize s.mem → a + vs.length ≤ s.cfg.memSize →
    Memory.wf (s.load a vs).mem ∧ Memory.within s.cfg.memSize (s.load a vs).mem ∧
    (∀ k (h : k < vs.length), (s.load a vs).byteAt (a + k) = vs[k]) ∧
    (∀ q, q < a ∨ a + vs.length ≤ q → (s.load a vs).byteAt q = s.byteAt q) := by
  induction vs with
  | nil => exact fun s a hw hin _ => ⟨hw, hin, fun k h => absurd h (by simp), fun _ _ => rfl⟩
  | cons v vs ih =>
    intro s a hw hin hl
    simp only [List.length_cons] at hl
    rw [State.load, if_pos (by omega)]
    obtain ⟨g1, g2, g3, g4⟩ := ih (s.setByte a v) (a + 1) (Memory.wf_write hw a v)
      (Memory.within_write hin (by omega) v) (by rw [show (s.setByte a v).cfg = s.cfg from rfl]; omega)
    refine ⟨g1, g2, fun k h => ?_, fun q hq => ?_⟩
    · cases k with
      | zero => exact (g4 a (by omega)).trans (byteAt_setByte_self hw a v)
      | succ k =>
        have := g3 k (by simpa using h)
        rw [show a + (k + 1) = a + 1 + k by omega, this]
        rfl
    · simp only [List.length_cons] at hq
      rw [g4 q (by omega)]
      exact byteAt_setByte_ne s (by omega) v

end Sys2Proof.Machine
end

