-- ==== Sys2Proof/Laws/Decode.lean ====
section
/-! SUPPORT. The laws of the dispatch table, the decoder and the encoder. -/

namespace Sys2Proof

/-- The number of operand bytes of an operation's instructions. -/
def Operation.count (h : Operation) : Nat := (h.instr 0 0).operands.length

theorem Operation.length_operands_instr (h : Operation) (a b : Byte) :
    (h.instr a b).operands.length = h.count := by cases h <;> rfl

@[simp] theorem Operation.operation_instr (h : Operation) (a b : Byte) : (h.instr a b).operation = h := by
  cases h <;> rfl

theorem Instr.length_operands (i : Instr) : i.operands.length = i.operation.count := by cases i <;> rfl

theorem Operation.count_le_two (h : Operation) : h.count ≤ 2 := by cases h <;> decide

/-- Every fixed row of the table declares its operation's operand count in bits 7:6, is not AND, and is found again by
its operation. -/
theorem opcodeTable_row (op : Byte) (h : Operation) (e : opcodeTable.lookup op = some h) :
    opcount op = h.count ∧ h ≠ .and ∧
      (opcodeTable.find? (fun row => row.2 == h)).map Prod.fst = some op := by
  have key : ∀ op : Byte, (opcodeTable.lookup op).all (fun h =>
      decide (opcount op = h.count) && decide (h ≠ .and) &&
        decide ((opcodeTable.find? (fun row => row.2 == h)).map Prod.fst = some op)) = true := by decide
  have := key op
  simp only [e, Option.all_some, Bool.and_eq_true, decide_eq_true_eq] at this
  exact ⟨this.1.1, this.1.2, this.2⟩

/-- Every operation but AND has its row. -/
theorem opcodeTable_of_find {h : Operation} {op : Byte}
    (e : (opcodeTable.find? (fun row => row.2 == h)).map Prod.fst = some op) : opcodeTable.lookup op = some h := by
  have key : ((opcodeTable.find? (fun row => row.2 == h)).map Prod.fst).all
      (fun op => decide (opcodeTable.lookup op = some h)) = true := by cases h <;> decide
  rwa [e, Option.all_some, decide_eq_true_eq] at key

/-- The bytes AND_OPCODE may be have no row and declare two operands (30_encoding.md R75). -/
theorem andOpcode_free (k : Byte) (h : Config.andOpcodeAllowed k = true) :
    opcodeTable.lookup k = none ∧ opcount k = 2 := by
  have key : ∀ k : Byte, Config.andOpcodeAllowed k = true →
      (opcodeTable.lookup k).isNone = true ∧ opcount k = 2 := by decide
  have := key k h
  exact ⟨Option.isNone_iff_eq_none.1 this.1, this.2⟩

theorem dispatch_of_lookup {c : Config} {op : Byte} {h : Operation} (e : opcodeTable.lookup op = some h) :
    dispatch c op = some h := by simp [dispatch, e]

/-- What dispatch answers: a row's operation, or AND at AND_OPCODE. -/
theorem dispatch_eq_some {c : Config} {op : Byte} {h : Operation} (e : dispatch c op = some h) :
    opcodeTable.lookup op = some h ∨ (opcodeTable.lookup op = none ∧ c.andOpcode = some op ∧ h = .and) := by
  unfold dispatch at e
  split at e
  · rename_i h' e'
    exact .inl (e'.trans e)
  · rename_i e'
    split at e
    · rename_i ha
      exact .inr ⟨e', ha, (Option.some.inj e).symm⟩
    · cases e

theorem andOpcode_allowed {c : Config} (v : c.Valid) {k : Byte} (e : c.andOpcode = some k) :
    Config.andOpcodeAllowed k = true := by
  have := v.2.2.1
  rwa [e, Option.all_some] at this

/-- An assigned opcode declares its operation's operand count (30_encoding.md R70, R71). -/
theorem opcount_of_dispatch {c : Config} (v : c.Valid) {op : Byte} {h : Operation} (e : dispatch c op = some h) :
    opcount op = h.count := by
  rcases dispatch_eq_some e with e | ⟨-, ha, rfl⟩
  · exact (opcodeTable_row op h e).1
  · exact (andOpcode_free op (andOpcode_allowed v ha)).2

/-- Dispatch and the encoder's opcode are inverse to each other. -/
theorem opcode_eq_some_iff {c : Config} (v : c.Valid) {op : Byte} {h : Operation} :
    h.opcode c = some op ↔ dispatch c op = some h := by
  unfold Operation.opcode
  constructor
  · intro e
    split at e
    · rename_i hand
      subst hand
      simp [dispatch, (andOpcode_free op (andOpcode_allowed v e)).1, e]
    · exact dispatch_of_lookup (opcodeTable_of_find e)
  · intro e
    rcases dispatch_eq_some e with e | ⟨-, ha, rfl⟩
    · have r := opcodeTable_row op h e
      rw [if_neg r.2.1]
      exact r.2.2
    · rw [if_pos rfl]
      exact ha

/-- An operation other than AND is selected by its row's opcode alone (30_encoding.md R74). -/
theorem opcode_of_dispatch {c : Config} {op k : Byte} {h : Operation} (e : dispatch c op = some h)
    (hk : (opcodeTable.find? (fun row => row.2 == h)).map Prod.fst = some k) : op = k := by
  rcases dispatch_eq_some e with e | ⟨-, -, rfl⟩
  · have := (opcodeTable_row op h e).2.2
    rw [hk] at this
    exact (Option.some.inj this).symm
  · cases hk

/-- AND's opcode is no row's (30_encoding.md R75). -/
theorem lookup_of_dispatch_and {c : Config} {op : Byte} (e : dispatch c op = some .and) :
    opcodeTable.lookup op = none := by
  rcases dispatch_eq_some e with e | ⟨e, -, -⟩
  · exact absurd rfl (opcodeTable_row op _ e).2.1
  · exact e

/-- Operand fetch with the declared bytes there (40_fetch_decode_execute.md R104). -/
theorem decodeOperands_ok {h : Operation} {n : Nat} {oA oB : Option Byte}
    (hA : 1 ≤ n → oA ≠ none) (hB : 2 ≤ n → oB ≠ none) :
    decodeOperands h n oA oB = .ok (h.instr (oA.getD 0) (oB.getD 0)) := by
  unfold decodeOperands
  rw [if_neg (fun e => hA e.1 e.2), if_neg (fun e => hB e.1 e.2)]

/-- What decoding an opcode and the bytes after it answers. -/
theorem decode_cons (c : Config) (op : Byte) (rest : List Byte) :
    (dispatch c op = none ∧ decode c (op :: rest) = .error (.unknownOpcode op)) ∨
    ∃ h, dispatch c op = some h ∧
      ((1 ≤ opcount op ∧ rest[0]? = none ∧ decode c (op :: rest) = .error (.missingByte 1)) ∨
       (2 ≤ opcount op ∧ rest[0]? ≠ none ∧ rest[1]? = none ∧ decode c (op :: rest) = .error (.missingByte 2)) ∨
       ((1 ≤ opcount op → rest[0]? ≠ none) ∧ (2 ≤ opcount op → rest[1]? ≠ none) ∧
         decode c (op :: rest) =
           .ok (h.instr (rest[0]?.getD 0) (rest[1]?.getD 0), rest.drop (opcount op)))) := by
  rcases e : dispatch c op with _ | h
  · exact .inl ⟨rfl, by simp [decode, e]⟩
  · refine .inr ⟨h, rfl, ?_⟩
    by_cases hA : 1 ≤ opcount op ∧ rest[0]? = none
    · exact .inl ⟨hA.1, hA.2, by simp only [decode, e, decodeOperands, if_pos hA]⟩
    · by_cases hB : 2 ≤ opcount op ∧ rest[1]? = none
      · refine .inr (.inl ⟨hB.1, fun h0 => hA ⟨by omega, h0⟩, hB.2, ?_⟩)
        simp only [decode, e, decodeOperands, if_neg hA, if_pos hB]
      · have h1 : 1 ≤ opcount op → rest[0]? ≠ none := fun a b => hA ⟨a, b⟩
        have h2 : 2 ≤ opcount op → rest[1]? ≠ none := fun a b => hB ⟨a, b⟩
        exact .inr (.inr ⟨h1, h2, by simp only [decode, e, decodeOperands_ok h1 h2]⟩)

/-- An instruction is its operation applied to its operand bytes. -/
theorem Instr.operation_instr_operands (i : Instr) (rest : List Byte) :
    i.operation.instr ((i.operands ++ rest)[0]?.getD 0) ((i.operands ++ rest)[1]?.getD 0) = i := by
  cases i <;> rfl

/-- The operand bytes of an operation's instruction are as many as it declares of the two bytes. -/
theorem Operation.operands_instr (h : Operation) (a b : Byte) : (h.instr a b).operands = [a, b].take h.count := by
  cases h <;> rfl

end Sys2Proof
end

