-- ==== Sys2Proof/Laws/Ops.lean ====
section
/-! SUPPORT. The stack primitives and `fit`: everything each can answer, said once. -/

namespace Sys2Proof.Machine

theorem memRead_eq (s : State) (a : Nat) :
    (s.cfg.memSize ≤ a ∧ s.memRead a = .error (.addressOutOfBounds a)) ∨
    (a < s.cfg.memSize ∧ s.memRead a = .ok (s.byteAt a)) := by
  unfold State.memRead
  by_cases h : a ≥ s.cfg.memSize
  · exact .inl ⟨h, if_pos h⟩
  · exact .inr ⟨by omega, if_neg h⟩

/-- The state a push leaves: SP decremented, then the value stored at the new SP (43_stack_and_calls.md R180). -/
def pushed (value : State → Byte) (s : State) : State :=
  (s.setX 7 (s.sp - 1)).setByte (s.sp.toNat - 1) (value (s.setX 7 (s.sp - 1)))

/-- Everything push can answer (43_stack_and_calls.md R180). -/
theorem push_cases (value : State → Byte) (s : State) :
    (s.sp.toNat ≤ s.cfg.stackLimit ∧ push value s = .error (.stackOverflow s.sp)) ∨
    (s.cfg.stackLimit < s.sp.toNat ∧ s.cfg.memSize ≤ s.sp.toNat - 1 ∧
      push value s = .error (.addressOutOfBounds (s.sp.toNat - 1))) ∨
    (s.cfg.stackLimit < s.sp.toNat ∧ s.sp.toNat - 1 < s.cfg.memSize ∧ push value s = .ok (pushed value s)) := by
  unfold push
  by_cases h1 : s.sp.toNat ≤ s.cfg.stackLimit
  · exact .inl ⟨h1, if_pos h1⟩
  · rw [if_neg h1]
    by_cases h2 : s.sp.toNat - 1 ≥ s.cfg.memSize
    · exact .inr (.inl ⟨by omega, h2, if_pos h2⟩)
    · rw [if_neg h2]
      refine .inr (.inr ⟨by omega, by omega, ?_⟩)
      have h3 : ¬ s.sp.toNat - 1 ≥ (s.setX 7 (s.sp - 1)).cfg.memSize := by simpa using h2
      simp only [State.memWrite, if_neg h3, pushed]

/-- Everything pop can answer (43_stack_and_calls.md R181). -/
theorem pop_cases (s : State) :
    (0xF4 ≤ s.sp.toNat ∧ pop s = .error (.stackUnderflow s.sp)) ∨
    (s.sp.toNat < 0xF4 ∧ s.cfg.memSize ≤ s.sp.toNat ∧ pop s = .error (.addressOutOfBounds s.sp.toNat)) ∨
    (s.sp.toNat < 0xF4 ∧ s.sp.toNat < s.cfg.memSize ∧
      pop s = .ok (s.byteAt s.sp.toNat, s.setX 7 (s.sp + 1))) := by
  unfold pop stackTop
  by_cases h1 : s.sp.toNat ≥ 0xF4
  · exact .inl ⟨h1, if_pos h1⟩
  · rw [if_neg h1]
    by_cases h2 : s.sp.toNat ≥ s.cfg.memSize
    · exact .inr (.inl ⟨by omega, h2, if_pos h2⟩)
    · rw [if_neg h2]
      refine .inr (.inr ⟨by omega, by omega, ?_⟩)
      simp only [State.memRead, if_neg h2]

/-- `fit` answers a byte unless the FAULT policy meets a value outside 0..255 (41_alu.md R131). -/
theorem fit_cases (p : OverflowPolicy) (v : Int) :
    (p = .fault ∧ (v < 0 ∨ 255 < v) ∧ fit p v = .error (.arithmeticOverflow v)) ∨
    ∃ r, fit p v = .ok r := by
  cases p
  · exact .inr ⟨_, rfl⟩
  · exact .inr ⟨_, rfl⟩
  · by_cases h : v < 0 ∨ v > 255
    · exact .inl ⟨rfl, h, if_pos h⟩
    · exact .inr ⟨_, if_neg h⟩

@[simp] theorem pushed_cfg (value : State → Byte) (s : State) : (pushed value s).cfg = s.cfg := rfl
@[simp] theorem pushed_fl (value : State → Byte) (s : State) : (pushed value s).fl = s.fl := rfl
@[simp] theorem pushed_ir (value : State → Byte) (s : State) : (pushed value s).ir = s.ir := rfl
@[simp] theorem pushed_run (value : State → Byte) (s : State) : (pushed value s).run = s.run := rfl
@[simp] theorem pushed_fault (value : State → Byte) (s : State) : (pushed value s).fault = s.fault := rfl
@[simp] theorem pushed_out (value : State → Byte) (s : State) : (pushed value s).out = s.out := rfl
@[simp] theorem pushed_x (value : State → Byte) (s : State) (r : Byte) :
    (pushed value s).x r = (s.setX 7 (s.sp - 1)).x r := rfl
@[simp] theorem pushed_isWritten (value : State → Byte) (s : State) (r : Byte) :
    (pushed value s).isWritten r = (s.setX 7 (s.sp - 1)).isWritten r := rfl

end Sys2Proof.Machine
end

