-- ==== Sys2Proof/Laws/Exec.lean ====
section
/-! SUPPORT. What REGCHECK, an instruction and a step can do, said once: later proofs cite these and do not unfold
`exec` or `step`. -/

namespace Sys2Proof.Machine

/-! ## REGCHECK -/

theorem invalidIndex_iff (b : Byte) : invalidIndex b = true ↔ 8 ≤ b.toNat := by
  simp only [invalidIndex, decide_eq_true_eq]
  omega

theorem unreadable_iff (s : State) (r : Byte) :
    unreadable s r = true ↔ s.cfg.unwrittenReads = .fault ∧ s.isWritten r = false := by
  simp [unreadable]

/-- Everything REGCHECK can answer (40_fetch_decode_execute.md R105). -/
theorem regCheck_cases (i : Instr) (s : State) :
    (∃ b before after, regOperands i = before ++ b :: after ∧ (∀ q ∈ before, q.toNat < 8) ∧ 8 ≤ b.toNat ∧
      regCheck i s = some (.invalidRegisterIndex b)) ∨
    ((∀ b ∈ regOperands i, b.toNat < 8) ∧ ∃ r before after, readRegs i = before ++ r :: after ∧
      (∀ q ∈ before, s.isWritten q = true) ∧ FaultsOnRead s r ∧
      regCheck i s = some (.unwrittenRegisterRead r)) ∨
    ((∀ b ∈ regOperands i, b.toNat < 8) ∧ regCheck i s = none) := by
  unfold regCheck
  rcases h1 : (regOperands i).find? invalidIndex with _ | b
  · have ok : ∀ b ∈ regOperands i, b.toNat < 8 := fun b hb => by
      have := List.find?_eq_none.1 h1 b hb
      rw [invalidIndex_iff] at this
      omega
    rcases h2 : (readRegs i).find? (unreadable s) with _ | r
    · exact .inr (.inr ⟨ok, rfl⟩)
    · obtain ⟨hr, before, after, e, hb⟩ := List.find?_eq_some_iff_append.1 h2
      have hr := (unreadable_iff s r).1 hr
      exact .inr (.inl ⟨ok, r, before, after, e, fun q hq => by simpa [unreadable, hr.1] using hb q hq, hr, rfl⟩)
  · obtain ⟨h8, before, after, e, hb⟩ := List.find?_eq_some_iff_append.1 h1
    refine .inl ⟨b, before, after, e, fun q hq => ?_, (invalidIndex_iff b).1 h8, rfl⟩
    have := hb q hq
    simp only [invalidIndex, Bool.not_eq_true', decide_eq_false_iff_not] at this
    omega

/-- REGCHECK passes where every operand names a register and every register read is readable. -/
theorem regCheck_eq_none {i : Instr} {s : State} (h1 : ∀ b ∈ regOperands i, b.toNat < 8)
    (h2 : s.cfg.unwrittenReads = .carryOn ∨ ∀ r ∈ readRegs i, s.isWritten r = true) : regCheck i s = none := by
  rcases regCheck_cases i s with ⟨b, l, m, hb, -, h8, -⟩ | ⟨-, r, l, m, hr, -, ⟨hp, hw⟩, -⟩ | ⟨-, h⟩
  · have := h1 b (by simp [hb])
    omega
  · rcases h2 with h | h
    · rw [h] at hp
      cases hp
    · rw [h r (by simp [hr])] at hw
      cases hw
  · exact h

/-! ## Instructions -/

/-- The handler of each instruction, as its meaning gives it to `perform`. -/
def handlerOf : Instr → State → Handled
  | .hlt => fun s => .halt s
  | .call a => fun s =>
    if s.pc + 2 ≥ s.cfg.memSize then .raise (.addressOutOfBounds (s.pc + 2))
    else
      match push (fun _ => BitVec.ofNat 8 (s.pc + 2)) s with
      | .error c => .raise c
      | .ok s' => .jump s' (s'.x a)
  | .ret => fun s =>
    match pop s with
    | .error c => .raise c
    | .ok (t, s') => .jump s' t
  | .dec a => fun s => writeFit a (s.xInt a - 1) s
  | .inc a => fun s => writeFit a (s.xInt a + 1) s
  | .not a => fun s => .next (s.setX a (0xFF ^^^ s.x a))
  | .ldi a i => fun s => .next (s.setX a i)
  | .prn a => fun s => .next (s.emit (s.x a))
  | .push a => fun s =>
    match push (fun s1 => s1.x a) s with
    | .error c => .raise c
    | .ok s' => .next s'
  | .pop a => fun s =>
    match pop s with
    | .error c => .raise c
    | .ok (v, s') => .next (s'.setX a v)
  | .add a b => fun s => writeFit a (s.xInt a + s.xInt b) s
  | .and a b => fun s => .next (s.setX a (s.x a &&& s.x b))
  | .cmp a b => fun s => .next (s.setEqual (s.x a == s.x b))
  | .div a b => fun s =>
    if s.x b = 0 then .raise (.divisionByZero b)
    else .next (s.setX a (BitVec.ofNat 8 ((s.x a).toNat / (s.x b).toNat)))
  | .mod a b => fun s =>
    if s.x b = 0 then .raise (.divisionByZero b)
    else .next (s.setX a (BitVec.ofNat 8 ((s.x a).toNat % (s.x b).toNat)))
  | .mul a b => fun s => writeFit a (s.xInt a * s.xInt b) s
  | .or a b => fun s => .next (s.setX a (s.x a ||| s.x b))
  | .sub a b => fun s => writeFit a (s.xInt a - s.xInt b) s
  | .xor a b => fun s => .next (s.setX a (s.x a ^^^ s.x b))
  | .nop => fun s => .next s

theorem exec_eq_perform (i : Instr) (s : State) : exec i s = perform i (handlerOf i) s := by
  cases i <;> rfl

theorem perform_of_regCheck_none {i : Instr} {s : State} (h : regCheck i s = none) (f : State → Handled) :
    perform i f s = .next (advance i.operands.length s (f s)) := by
  simp [perform, h]

theorem perform_of_regCheck_some {i : Instr} {s : State} {c : FaultCause} (h : regCheck i s = some c)
    (f : State → Handled) : perform i f s = .next (s.takeFault c) := by
  simp [perform, h]

/-- An instruction whose REGCHECK passes runs its handler and advances. -/
theorem exec_of_regCheck_none {i : Instr} {s : State} (h : regCheck i s = none) :
    exec i s = .next (advance i.operands.length s (handlerOf i s)) := by
  rw [exec_eq_perform, perform_of_regCheck_none h]

theorem exec_of_regCheck_some {i : Instr} {s : State} {c : FaultCause} (h : regCheck i s = some c) :
    exec i s = .next (s.takeFault c) := by
  rw [exec_eq_perform, perform_of_regCheck_some h]

/-- Everything writing a fitted result can answer. -/
theorem writeFit_cases (a : Byte) (v : Int) (s : State) :
    (s.cfg.overflow = .fault ∧ (v < 0 ∨ 255 < v) ∧ writeFit a v s = .raise (.arithmeticOverflow v)) ∨
    ∃ r, fit s.cfg.overflow v = .ok r ∧ writeFit a v s = .next (s.setX a r) := by
  rcases fit_cases s.cfg.overflow v with ⟨hp, hv, e⟩ | ⟨r, e⟩
  · exact .inl ⟨hp, hv, by simp [writeFit, e]⟩
  · exact .inr ⟨r, e, by simp [writeFit, e]⟩

/-- How an instruction can change the state it completes in: the one list of effects. -/
inductive Effect (s : State) : Instr → State → Prop where
  | nop : Effect s .nop { s with pc := s.pc + 0 + 1 }
  | halt : Effect s .hlt { s with pc := s.pc + 0 + 1, run := .halted }
  | reg (i : Instr) (a v : Byte) (ha : (regOperands i).head? = some a)
      (hi : i.operation ∉ [.nop, .hlt, .call, .ret, .push, .pop, .prn, .cmp]) :
      Effect s i { s.setX a v with pc := s.pc + i.operands.length + 1 }
  | flag (a b : Byte) : Effect s (.cmp a b) { s.setEqual (s.x a == s.x b) with pc := s.pc + 2 + 1 }
  | out (a : Byte) : Effect s (.prn a) { s.emit (s.x a) with pc := s.pc + 1 + 1 }
  | push (a : Byte) (h1 : s.cfg.stackLimit < s.sp.toNat) (h2 : s.sp.toNat - 1 < s.cfg.memSize) :
      Effect s (.push a) { pushed (fun s1 => s1.x a) s with pc := s.pc + 1 + 1 }
  | pop (a : Byte) (h1 : s.sp.toNat < 0xF4) (h2 : s.sp.toNat < s.cfg.memSize) :
      Effect s (.pop a) { (s.setX 7 (s.sp + 1)).setX a (s.byteAt s.sp.toNat) with pc := s.pc + 1 + 1 }
  | call (a : Byte) (h0 : s.pc + 2 < s.cfg.memSize) (h1 : s.cfg.stackLimit < s.sp.toNat)
      (h2 : s.sp.toNat - 1 < s.cfg.memSize) :
      Effect s (.call a)
        { pushed (fun _ => BitVec.ofNat 8 (s.pc + 2)) s with pc := ((s.setX 7 (s.sp - 1)).x a).toNat }
  | ret (h1 : s.sp.toNat < 0xF4) (h2 : s.sp.toNat < s.cfg.memSize) :
      Effect s .ret { s.setX 7 (s.sp + 1) with pc := (s.byteAt s.sp.toNat).toNat }

/-- Why an instruction can fault: the one list of causes (60_exceptions.md R211, items 4 to 6). -/
inductive Raises (s : State) : Instr → FaultCause → Prop where
  | index (i : Instr) (b : Byte) (before after : List Byte) (hb : regOperands i = before ++ b :: after)
      (first : ∀ q ∈ before, q.toNat < 8) (h : 8 ≤ b.toNat) : Raises s i (.invalidRegisterIndex b)
  | unwritten (i : Instr) (r : Byte) (before after : List Byte) (ok : ∀ b ∈ regOperands i, b.toNat < 8)
      (hr : readRegs i = before ++ r :: after) (first : ∀ q ∈ before, s.isWritten q = true)
      (h : FaultsOnRead s r) : Raises s i (.unwrittenRegisterRead r)
  | divisor (i : Instr) (a b : Byte) (hi : i = .div a b ∨ i = .mod a b) (hb : b.toNat < 8) (h : s.x b = 0) :
      Raises s i (.divisionByZero b)
  | overflow (i : Instr) (v : Int) (hi : exactResult s i = some v)
      (hp : s.cfg.overflow = .fault) (hv : v < 0 ∨ 255 < v) : Raises s i (.arithmeticOverflow v)
  | returnAddress (a : Byte) (h : s.cfg.memSize ≤ s.pc + 2) : Raises s (.call a) (.addressOutOfBounds (s.pc + 2))
  | pushLimit (i : Instr) (hi : i.operation ∈ [.push, .call]) (h : s.sp.toNat ≤ s.cfg.stackLimit) :
      Raises s i (.stackOverflow s.sp)
  | pushAddress (i : Instr) (hi : i.operation ∈ [.push, .call]) (room : s.cfg.stackLimit < s.sp.toNat)
      (h : s.cfg.memSize ≤ s.sp.toNat - 1) :
      Raises s i (.addressOutOfBounds (s.sp.toNat - 1))
  | popLimit (i : Instr) (hi : i.operation ∈ [.pop, .ret]) (h : 0xF4 ≤ s.sp.toNat) : Raises s i (.stackUnderflow s.sp)
  | popAddress (i : Instr) (hi : i.operation ∈ [.pop, .ret]) (room : s.sp.toNat < 0xF4)
      (h : s.cfg.memSize ≤ s.sp.toNat) :
      Raises s i (.addressOutOfBounds s.sp.toNat)

/-- Everything an instruction can do: take one of the faults, or have its effect. -/
theorem exec_cases (i : Instr) (s : State) :
    (∃ c, Raises s i c ∧ exec i s = .next (s.takeFault c)) ∨
    ∃ t, Effect s i t ∧ regCheck i s = none ∧ exec i s = .next t := by
  rcases regCheck_cases i s with ⟨b, l, m, hb, first, h8, e⟩ | ⟨ok, r, l, m, hr, first, h, e⟩ | ⟨ok, e⟩
  · exact .inl ⟨_, .index i b l m hb first h8, exec_of_regCheck_some e⟩
  · exact .inl ⟨_, .unwritten i r l m ok hr first h, exec_of_regCheck_some e⟩
  rw [exec_of_regCheck_none e]
  have fitted : ∀ (a : Byte) (v : Int), handlerOf i s = writeFit a v s → (regOperands i).head? = some a →
      exactResult s i = some v →
      (∃ c, Raises s i c ∧ (.next (advance i.operands.length s (handlerOf i s)) : Host.Outcome State Fault Refusal) =
          .next (s.takeFault c)) ∨
      ∃ t, Effect s i t ∧ regCheck i s = none ∧
        (.next (advance i.operands.length s (handlerOf i s)) : Host.Outcome State Fault Refusal) = .next t := by
    intro a v hv ha hi
    rcases writeFit_cases a v s with ⟨hp, ho, w⟩ | ⟨r, -, w⟩
    · exact .inl ⟨_, .overflow i v hi hp ho, by rw [hv, w]; rfl⟩
    · refine .inr ⟨_, .reg i a r ha ?_, e, by rw [hv, w]; rfl⟩
      cases i <;> first | (cases hi; done) | simp [Instr.operation]
  cases i with
  | hlt => exact .inr ⟨_, .halt, e, rfl⟩
  | nop => exact .inr ⟨_, .nop, e, rfl⟩
  | dec a => exact fitted a _ rfl (by simp [regOperands]) rfl
  | inc a => exact fitted a _ rfl (by simp [regOperands]) rfl
  | add a b => exact fitted a _ rfl (by simp [regOperands]) rfl
  | mul a b => exact fitted a _ rfl (by simp [regOperands]) rfl
  | sub a b => exact fitted a _ rfl (by simp [regOperands]) rfl
  | not a => exact .inr ⟨_, .reg _ a _ (by simp [regOperands]) (by simp [Instr.operation]), e, rfl⟩
  | ldi a v => exact .inr ⟨_, .reg _ a _ (by simp [regOperands]) (by simp [Instr.operation]), e, rfl⟩
  | and a b => exact .inr ⟨_, .reg _ a _ (by simp [regOperands]) (by simp [Instr.operation]), e, rfl⟩
  | or a b => exact .inr ⟨_, .reg _ a _ (by simp [regOperands]) (by simp [Instr.operation]), e, rfl⟩
  | xor a b => exact .inr ⟨_, .reg _ a _ (by simp [regOperands]) (by simp [Instr.operation]), e, rfl⟩
  | prn a => exact .inr ⟨_, .out a, e, rfl⟩
  | cmp a b => exact .inr ⟨_, .flag a b, e, rfl⟩
  | div a b =>
    by_cases h : s.x b = 0
    · exact .inl ⟨_, .divisor _ a b (.inl rfl) (ok b (by simp [regOperands])) h, by simp only [handlerOf, if_pos h]; rfl⟩
    · exact .inr ⟨_, .reg _ a _ (by simp [regOperands]) (by simp [Instr.operation]), e,
        by simp only [handlerOf, if_neg h]; rfl⟩
  | mod a b =>
    by_cases h : s.x b = 0
    · exact .inl ⟨_, .divisor _ a b (.inr rfl) (ok b (by simp [regOperands])) h, by simp only [handlerOf, if_pos h]; rfl⟩
    · exact .inr ⟨_, .reg _ a _ (by simp [regOperands]) (by simp [Instr.operation]), e,
        by simp only [handlerOf, if_neg h]; rfl⟩
  | push a =>
    rcases push_cases (fun s1 => s1.x a) s with ⟨h, w⟩ | ⟨room, h, w⟩ | ⟨h1, h2, w⟩
    · exact .inl ⟨_, .pushLimit _ (by simp [Instr.operation]) h, by simp only [handlerOf, w]; rfl⟩
    · exact .inl ⟨_, .pushAddress _ (by simp [Instr.operation]) room h, by simp only [handlerOf, w]; rfl⟩
    · exact .inr ⟨_, .push a h1 h2, e, by simp only [handlerOf, w]; rfl⟩
  | pop a =>
    rcases pop_cases s with ⟨h, w⟩ | ⟨room, h, w⟩ | ⟨h1, h2, w⟩
    · exact .inl ⟨_, .popLimit _ (by simp [Instr.operation]) h, by simp only [handlerOf, w]; rfl⟩
    · exact .inl ⟨_, .popAddress _ (by simp [Instr.operation]) room h, by simp only [handlerOf, w]; rfl⟩
    · exact .inr ⟨_, .pop a h1 h2, e, by simp only [handlerOf, w]; rfl⟩
  | ret =>
    rcases pop_cases s with ⟨h, w⟩ | ⟨room, h, w⟩ | ⟨h1, h2, w⟩
    · exact .inl ⟨_, .popLimit _ (by simp [Instr.operation]) h, by simp only [handlerOf, w]; rfl⟩
    · exact .inl ⟨_, .popAddress _ (by simp [Instr.operation]) room h, by simp only [handlerOf, w]; rfl⟩
    · exact .inr ⟨_, .ret h1 h2, e, by simp only [handlerOf, w]; rfl⟩
  | call a =>
    by_cases h0 : s.pc + 2 ≥ s.cfg.memSize
    · exact .inl ⟨_, .returnAddress a h0, by simp only [handlerOf, if_pos h0]; rfl⟩
    rcases push_cases (fun _ => BitVec.ofNat 8 (s.pc + 2)) s with ⟨h, w⟩ | ⟨room, h, w⟩ | ⟨h1, h2, w⟩
    · exact .inl ⟨_, .pushLimit _ (by simp [Instr.operation]) h, by simp only [handlerOf, if_neg h0, w]; rfl⟩
    · exact .inl ⟨_, .pushAddress _ (by simp [Instr.operation]) room h, by simp only [handlerOf, if_neg h0, w]; rfl⟩
    · exact .inr ⟨_, .call a (by omega) h1 h2, e, by simp only [handlerOf, if_neg h0, w]; rfl⟩

/-! ## Steps -/

theorem fetchOpcode_ok {s : State} (h : s.pc < s.cfg.memSize) : s.fetchOpcode = .ok (s.byteAt s.pc) := by
  simp [State.fetchOpcode, State.memRead, h]

theorem fetchOpcode_error {s : State} (h : s.cfg.memSize ≤ s.pc) :
    s.fetchOpcode = .error (.addressOutOfBounds s.pc) := by
  simp [State.fetchOpcode, State.memRead, h]

/-- The operand bytes the decoder is given: those at pc + 1 and pc + 2 that are inside memory. -/
theorem fetchedBytes_tail (s : State) (op : Byte) :
    ∃ rest, s.fetchedBytes op = op :: rest ∧ rest[0]? = s.operandA ∧ rest[1]? = s.operandB := by
  refine ⟨_, rfl, ?_⟩
  unfold State.operandA State.operandB State.byteInside
  by_cases h1 : s.pc + 1 < s.cfg.memSize
  · by_cases h2 : s.pc + 2 < s.cfg.memSize
    · simp [h1, h2]
    · simp [h1, h2]
  · have h2 : ¬ s.pc + 2 < s.cfg.memSize := by omega
    simp [h1, h2]

/-- Everything DECODE and OPERAND can answer (40_fetch_decode_execute.md R103, R104). -/
theorem decodeFetched_cases (s : State) (op : Byte) :
    (dispatch s.cfg op = none ∧ s.decodeFetched op = .error (.unknownOpcode op)) ∨
    ∃ h, dispatch s.cfg op = some h ∧
      ((1 ≤ opcount op ∧ s.cfg.memSize ≤ s.pc + 1 ∧ s.decodeFetched op = .error (.addressOutOfBounds (s.pc + 1))) ∨
       (2 ≤ opcount op ∧ s.pc + 1 < s.cfg.memSize ∧ s.cfg.memSize ≤ s.pc + 2 ∧
         s.decodeFetched op = .error (.addressOutOfBounds (s.pc + 2))) ∨
       ((1 ≤ opcount op → s.pc + 1 < s.cfg.memSize) ∧ (2 ≤ opcount op → s.pc + 2 < s.cfg.memSize) ∧
         s.decodeFetched op = .ok (h.instr (s.operandA.getD 0) (s.operandB.getD 0)))) := by
  obtain ⟨rest, hr, hA, hB⟩ := fetchedBytes_tail s op
  have inA : s.operandA = none ↔ s.cfg.memSize ≤ s.pc + 1 := by simp [State.operandA, State.byteInside]
  have inB : s.operandB = none ↔ s.cfg.memSize ≤ s.pc + 2 := by simp [State.operandB, State.byteInside]
  unfold State.decodeFetched
  rw [hr]
  rcases decode_cons s.cfg op rest with ⟨d, e⟩ | ⟨h, d, ⟨n, m, e⟩ | ⟨n, p, m, e⟩ | ⟨n1, n2, e⟩⟩
  · exact .inl ⟨d, by rw [e]⟩
  · rw [hA, inA] at m
    exact .inr ⟨h, d, .inl ⟨n, m, by rw [e]⟩⟩
  · rw [hB, inB] at m
    rw [hA, ne_eq, inA] at p
    exact .inr ⟨h, d, .inr (.inl ⟨n, by omega, m, by rw [e]⟩)⟩
  · rw [hA, ne_eq, inA] at n1
    rw [hB, ne_eq, inB] at n2
    refine .inr ⟨h, d, .inr (.inr ⟨fun q => ?_, fun q => ?_, by rw [e, hA, hB]⟩)⟩
    · have := n1 q
      omega
    · have := n2 q
      omega

/-- Everything a step can do. -/
theorem step_cases (s : State) :
    (s.run ≠ .running ∧ step s = .next s) ∨
    (s.run = .running ∧
      ((s.cfg.memSize ≤ s.pc ∧ step s = .next (s.takeFault (.addressOutOfBounds s.pc))) ∨
       (s.pc < s.cfg.memSize ∧
         ((∃ c, (s.latchIR (s.byteAt s.pc)).decodeFetched (s.byteAt s.pc) = .error c ∧
             step s = .next ((s.latchIR (s.byteAt s.pc)).takeFault c)) ∨
          (∃ i, (s.latchIR (s.byteAt s.pc)).decodeFetched (s.byteAt s.pc) = .ok i ∧
             step s = exec i (s.latchIR (s.byteAt s.pc))))))) := by
  unfold step
  rcases hr : s.run with _ | _ | _
  · refine .inr ⟨rfl, ?_⟩
    by_cases h : s.cfg.memSize ≤ s.pc
    · exact .inl ⟨h, by simp only [fetchOpcode_error h]⟩
    · have h' : s.pc < s.cfg.memSize := by omega
      refine .inr ⟨h', ?_⟩
      rcases hd : (s.latchIR (s.byteAt s.pc)).decodeFetched (s.byteAt s.pc) with c | i
      · exact .inl ⟨c, rfl, by simp only [fetchOpcode_ok h', hd]⟩
      · exact .inr ⟨i, rfl, by simp only [fetchOpcode_ok h', hd]⟩
  · exact .inl ⟨by simp, rfl⟩
  · exact .inl ⟨by simp, rfl⟩

end Sys2Proof.Machine
end

