-- ==== Sys2Proof/Laws/Step.lean ====
section
/-! SUPPORT. The inversion of a step in full, and the laws of runs of many steps. -/

namespace Sys2Proof.Machine

/-- Taking a fault changes the run state and the record only. -/
theorem faultTaken_takeFault (s : State) (c : FaultCause) : FaultTaken s (s.takeFault c) c := by
  simp [FaultTaken, RegsKept, MemKept]

/-- No instruction leaves the model's state. -/
theorem exec_total (i : Instr) (s : State) : ∃ t, exec i s = .next t := by
  rcases exec_cases i s with ⟨c, -, e⟩ | ⟨u, hu, -, e⟩ <;> exact ⟨_, e⟩

/-- No instruction writes IR: only the fetch does (10_state.md R31). -/
theorem exec_ir {i : Instr} {s t : State} (h : exec i s = .next t) : t.ir = s.ir := by
  rcases exec_cases i s with ⟨c, -, e⟩ | ⟨u, hu, -, e⟩ <;> rw [h] at e <;> injection e with e <;> subst e
  · rfl
  · cases hu <;> rfl

/-- A completed effect leaves the core running or halted. -/
theorem effect_run {s t : State} {i : Instr} (h : Effect s i t) (hr : s.run = .running) : t.run ≠ .faulted := by
  cases h <;> simp [hr]

/-- An operation reads only the operand bytes it declares (40_fetch_decode_execute.md R114). -/
theorem instr_ignores (o : Operation) (a b a' b' : Byte) (h1 : 1 ≤ o.count → a = a') (h2 : 2 ≤ o.count → b = b') :
    o.instr a b = o.instr a' b' := by
  cases o <;> first | rfl | (rw [h1 (by decide)]; rfl) | rw [h1 (by decide), h2 (by decide)]

/-- The bytes at pc, inside memory, are those the step fetches. -/
theorem bytesAtPc_eq {s : State} (h : s.pc < s.cfg.memSize) :
    bytesAtPc s = (s.latchIR (s.byteAt s.pc)).fetchedBytes (s.byteAt s.pc) := by
  unfold bytesAtPc State.fetchedBytes State.operandA State.operandB State.byteInside
  by_cases h1 : s.pc + 1 < s.cfg.memSize <;> by_cases h2 : s.pc + 2 < s.cfg.memSize
  all_goals first | (exfalso; omega) | simp [h, h1, h2]

/-- What DECODE and OPERAND answer is the instruction at pc. -/
theorem instrAt_of_decodeFetched {s : State} {i : Instr} (h : s.pc < s.cfg.memSize)
    (e : (s.latchIR (s.byteAt s.pc)).decodeFetched (s.byteAt s.pc) = .ok i) : InstrAt s i := by
  unfold InstrAt
  rw [bytesAtPc_eq h]
  unfold State.decodeFetched at e
  split at e
  · rename_i j rest d
    injection e with e
    exact ⟨rest, e ▸ d⟩
  · cases e
  · cases e

/-- Everything a step can do, down to the causes of its faults and the effect of its instruction. -/
theorem step_inv {s t : State} (hs : step s = .next t) :
    (s.run ≠ .running ∧ t = s) ∨
    (s.run = .running ∧ s.cfg.memSize ≤ s.pc ∧ t = s.takeFault (.addressOutOfBounds s.pc)) ∨
    (s.run = .running ∧ s.pc < s.cfg.memSize ∧ ∃ c, t = (s.latchIR (s.byteAt s.pc)).takeFault c ∧
      ((dispatch s.cfg (s.byteAt s.pc) = none ∧ c = .unknownOpcode (s.byteAt s.pc)) ∨
       (dispatch s.cfg (s.byteAt s.pc) ≠ none ∧
         ((1 ≤ opcount (s.byteAt s.pc) ∧ s.cfg.memSize ≤ s.pc + 1 ∧ c = .addressOutOfBounds (s.pc + 1)) ∨
          (2 ≤ opcount (s.byteAt s.pc) ∧ s.pc + 1 < s.cfg.memSize ∧ s.cfg.memSize ≤ s.pc + 2 ∧
            c = .addressOutOfBounds (s.pc + 2)))))) ∨
    (s.run = .running ∧ s.pc < s.cfg.memSize ∧ ∃ o a b, dispatch s.cfg (s.byteAt s.pc) = some o ∧
      (1 ≤ opcount (s.byteAt s.pc) → s.pc + 1 < s.cfg.memSize ∧ a = s.byteAt (s.pc + 1)) ∧
      (2 ≤ opcount (s.byteAt s.pc) → s.pc + 2 < s.cfg.memSize ∧ b = s.byteAt (s.pc + 2)) ∧
      InstrAt s (o.instr a b) ∧
      ((∃ c, Raises (s.latchIR (s.byteAt s.pc)) (o.instr a b) c ∧ t = (s.latchIR (s.byteAt s.pc)).takeFault c) ∨
       (Effect (s.latchIR (s.byteAt s.pc)) (o.instr a b) t ∧
         regCheck (o.instr a b) (s.latchIR (s.byteAt s.pc)) = none))) := by
  have dec := decodeFetched_cases (s.latchIR (s.byteAt s.pc)) (s.byteAt s.pc)
  rcases step_cases s with ⟨h, w⟩ | ⟨hr, ⟨h, w⟩ | ⟨h', ⟨c, e, w⟩ | ⟨j, e, w⟩⟩⟩ <;> rw [hs] at w
  · injection w with w
    exact .inl ⟨h, w⟩
  · injection w with w
    exact .inr (.inl ⟨hr, h, w⟩)
  · injection w with w
    refine .inr (.inr (.inl ⟨hr, h', c, w, ?_⟩))
    rcases dec with ⟨d, f⟩ | ⟨o', d, ⟨m1, m2, f⟩ | ⟨m1, m2, m3, f⟩ | ⟨m1, m2, f⟩⟩ <;> rw [f] at e <;> cases e
    · exact .inl ⟨d, rfl⟩
    · exact .inr ⟨fun n => (by rw [latchIR_cfg, n] at d; cases d), .inl ⟨m1, m2, rfl⟩⟩
    · exact .inr ⟨fun n => (by rw [latchIR_cfg, n] at d; cases d), .inr ⟨m1, m2, m3, rfl⟩⟩
  · refine .inr (.inr (.inr ⟨hr, h', ?_⟩))
    rcases dec with ⟨d, f⟩ | ⟨o', d, ⟨m1, m2, f⟩ | ⟨m1, m2, m3, f⟩ | ⟨m1, m2, f⟩⟩ <;> rw [f] at e <;> cases e
    refine ⟨o', (s.latchIR (s.byteAt s.pc)).operandA.getD 0, (s.latchIR (s.byteAt s.pc)).operandB.getD 0, d,
      fun q => ⟨m1 q, ?_⟩, fun q => ⟨m2 q, ?_⟩, instrAt_of_decodeFetched h' f, ?_⟩
    · have : s.pc + 1 < s.cfg.memSize := m1 q
      simp [State.operandA, State.byteInside, this]
    · have : s.pc + 2 < s.cfg.memSize := m2 q
      simp [State.operandB, State.byteInside, this]
    · rcases exec_cases _ (s.latchIR (s.byteAt s.pc)) with ⟨c, hc, e⟩ | ⟨u, hu, hk, e⟩ <;> rw [e] at w <;>
        injection w with w <;> subst w
      · exact .inl ⟨c, hc, rfl⟩
      · exact .inr ⟨hu, hk⟩

theorem step_total (s : State) : ∃ t, step s = .next t := by
  rcases step_cases s with ⟨h, w⟩ | ⟨-, ⟨h, w⟩ | ⟨h', ⟨c, e, w⟩ | ⟨j, e, w⟩⟩⟩
  · exact ⟨_, w⟩
  · exact ⟨_, w⟩
  · exact ⟨_, w⟩
  · obtain ⟨t, ht⟩ := exec_total j (s.latchIR (s.byteAt s.pc))
    exact ⟨t, w.trans ht⟩

/-! ## Runs -/

theorem run_succ (M : Host.Core) (k : Nat) (s u : M.State) (h : M.step s = .next u) :
    M.run (k + 1) s = M.run k u := by
  rw [Host.Core.run, h]

theorem run_zero (M : Host.Core) (s : M.State) : M.run 0 s = .next s := by
  rw [Host.Core.run]

theorem reaches_zero {s t : State} : Reaches 0 s t ↔ s = t := by
  unfold Reaches
  rw [run_zero Sys2Proof.core s]
  exact ⟨fun h => by injection h, fun h => by rw [h]⟩

theorem reaches_succ {k : Nat} {s t u : State} (h : step s = .next u) : Reaches (k + 1) s t ↔ Reaches k u t := by
  unfold Reaches
  rw [run_succ Sys2Proof.core k s u h]

/-- A step of a core that does not run answers the same state (40_fetch_decode_execute.md R109). -/
theorem step_stopped {s : State} (h : s.run ≠ .running) : step s = .next s := by
  rcases step_cases s with ⟨-, w⟩ | ⟨q, -⟩
  · exact w
  · exact absurd q h

theorem reaches_stopped {s : State} (h : s.run ≠ .running) : ∀ k, Reaches k s s := by
  intro k
  induction k with
  | zero => exact reaches_zero.2 rfl
  | succ k ih => exact (reaches_succ (step_stopped h)).2 ih

theorem reaches_unique {k : Nat} {s t u : State} (h : Reaches k s t) (h' : Reaches k s u) : t = u := by
  unfold Reaches at *
  rw [h] at h'
  injection h'

end Sys2Proof.Machine
end

