-- ==== Sys2Proof/Laws/Frames.lean ====
section
/-! SUPPORT. Lemmas for the statements about single instructions: the frames of the updates, what REGCHECK stops with,
what a fitted result is, and the exact state each stack instruction completes in. -/

namespace Sys2Proof

/-- The operand count of the shift-and-mask form is the value of bits 7:6 (30_encoding.md R70). -/
theorem opcount_div : ∀ op : Byte, opcount op = op.toNat / 64 := by decide

/-- The bytes without a row are those outside the map of 30_encoding.md R77. -/
theorem lookup_eq_none_iff (op : Byte) : opcodeTable.lookup op = none ↔ op ∉ Machine.assignedOpcodes := by
  have key : ∀ op : Byte, ((opcodeTable.lookup op).isNone = true ↔ op ∉ Machine.assignedOpcodes) := by decide
  rw [← key op, Option.isNone_iff_eq_none]

theorem dispatch_eq_none_iff (c : Config) (op : Byte) :
    dispatch c op = none ↔ op ∉ Machine.assignedOpcodes ∧ c.andOpcode ≠ some op := by
  rw [← lookup_eq_none_iff]
  unfold dispatch
  split
  · rename_i e
    simp [e]
  · rename_i e
    simp [e]

theorem Config.memSize_le {c : Config} (v : c.Valid) : c.memSize ≤ 256 := by
  have := v.1
  simp [Config.memSizes] at this
  omega

namespace Machine

/-! ## Frames of the updates -/

theorem regsKept_of_eq {s t : State} (h1 : t.regs = s.regs) (h2 : t.written = s.written) : RegsKept s t [] :=
  fun c _ _ => by simp [State.x, State.isWritten, h1, h2]

theorem regsKept_setX (s : State) (a v : Byte) (p : Nat) : RegsKept s { s.setX a v with pc := p } [a] :=
  fun c _ hne =>
    have e : a ≠ c := fun e => hne (by simp [e])
    ⟨x_setX_ne s e v, isWritten_setX_ne s e v⟩

theorem onlyRegister_setX (s : State) {a : Byte} (v : Byte) (ha : a.toNat < 8) (p : Nat) :
    OnlyRegister s { s.setX a v with pc := p } a :=
  ⟨isWritten_setX_self s ha v, regsKept_setX s a v p, fun _ => rfl, rfl, rfl, rfl, rfl, rfl, rfl⟩

theorem regsKept_pushed (value : State → Byte) (s : State) (p : Nat) :
    RegsKept s { pushed value s with pc := p } [7] := fun c _ hne =>
  have e : (7 : Byte) ≠ c := fun e => hne (by simp [e])
  ⟨x_setX_ne s e (s.sp - 1), isWritten_setX_ne s e (s.sp - 1)⟩

/-- The pushed byte, read back where it was stored (43_stack_and_calls.md R180). -/
theorem byteAt_pushed_self (value : State → Byte) {s : State} (hw : Memory.wf s.mem) :
    (pushed value s).byteAt (s.sp.toNat - 1) = value (s.setX 7 (s.sp - 1)) :=
  byteAt_setByte_self (s := s.setX 7 (s.sp - 1)) hw _ _

theorem byteAt_pushed_ne (value : State → Byte) (s : State) {a : Nat} (h : a ≠ s.sp.toNat - 1) :
    (pushed value s).byteAt a = s.byteAt a := byteAt_setByte_ne _ h _

@[simp] theorem sp_pushed (value : State → Byte) (s : State) : (pushed value s).x 7 = s.sp - 1 :=
  sp_setX_seven s (s.sp - 1)

theorem toNat_sub_one {x : Byte} (h : 0 < x.toNat) : (x - 1).toNat + 1 = x.toNat := by bv_omega

theorem toNat_add_one {x : Byte} (h : x.toNat < 0xF4) : (x + 1).toNat = x.toNat + 1 := by bv_omega

/-! ## Effects -/

/-- No effect writes the parameters (10_state.md R39). -/
theorem effect_cfg {s t : State} {i : Instr} (h : Effect s i t) : t.cfg = s.cfg := by cases h <;> rfl

/-- No effect writes the fault record (10_state.md R37). -/
theorem effect_fault {s t : State} {i : Instr} (h : Effect s i t) : t.fault = s.fault := by cases h <;> rfl

/-- Where an effect leaves pc (40_fetch_decode_execute.md R107). -/
theorem effect_pc {s t : State} {i : Instr} (h : Effect s i t) :
    (i.operation ≠ .call → i.operation ≠ .ret → t.pc = s.pc + i.operands.length + 1) ∧
    (i.operation = .call ∨ i.operation = .ret → t.pc < 256) := by
  cases h with
  | call => exact ⟨fun h => absurd rfl h, fun _ => BitVec.isLt _⟩
  | ret => exact ⟨fun _ h => absurd rfl h, fun _ => BitVec.isLt _⟩
  | reg i a v ha hi =>
    refine ⟨fun _ _ => rfl, fun h => ?_⟩
    rcases h with h | h <;> simp [h] at hi
  | _ => exact ⟨fun _ _ => rfl, fun h => by rcases h with h | h <;> cases h⟩

/-- Every effect keeps memory's canonical form and extent, and R7 written (20_memory.md R50; 10_state.md R24). -/
theorem effect_keeps {s t : State} {i : Instr} (hw : Memory.wf s.mem) (hin : Memory.within s.cfg.memSize s.mem)
    (h7 : s.isWritten 7 = true) (h : Effect s i t) :
    Memory.wf t.mem ∧ Memory.within t.cfg.memSize t.mem ∧ t.isWritten 7 = true := by
  cases h with
  | reg _ a w ha => exact ⟨hw, hin, isWritten_setX_of_isWritten _ w h7⟩
  | push a h1 h2 =>
    exact ⟨Memory.wf_write hw _ _, Memory.within_write hin h2 _, isWritten_setX_of_isWritten _ (s.sp - 1) h7⟩
  | pop a h1 h2 =>
    exact ⟨hw, hin,
      isWritten_setX_of_isWritten _ (s.byteAt s.sp.toNat) (isWritten_setX_of_isWritten _ (s.sp + 1) h7)⟩
  | call a h0 h1 h2 =>
    exact ⟨Memory.wf_write hw _ _, Memory.within_write hin h2 _, isWritten_setX_of_isWritten _ (s.sp - 1) h7⟩
  | ret h1 h2 => exact ⟨hw, hin, isWritten_setX_of_isWritten _ (s.sp + 1) h7⟩
  | _ => exact ⟨hw, hin, h7⟩

/-! ## REGCHECK -/

theorem regCheck_of_readable {i : Instr} {s : State} (h1 : ∀ b ∈ regOperands i, b.toNat < 8)
    (h2 : Readable s (readRegs i)) : regCheck i s = none := regCheck_eq_none h1 h2

theorem faultTaken_of_regCheck {i : Instr} {s : State} {c : FaultCause} (h : regCheck i s = some c) :
    ∃ t, exec i s = .next t ∧ FaultTaken s t c :=
  ⟨_, exec_of_regCheck_some h, faultTaken_takeFault s c⟩

theorem invalidIndex_of_lt {b : Byte} (h : b.toNat < 8) : invalidIndex b = false := by
  rw [Bool.eq_false_iff, ne_eq, invalidIndex_iff]
  omega

theorem unreadable_of_isWritten {s : State} {r : Byte} (h : s.isWritten r = true) : unreadable s r = false := by
  simp [unreadable, h]

theorem find_unreadable (s : State) (bs : List Byte) (r : Byte) (after : List Byte)
    (h : ∀ q ∈ bs, s.isWritten q = true) (hf : FaultsOnRead s r) :
    (bs ++ r :: after).find? (unreadable s) = some r := by
  induction bs with
  | nil => simp [(unreadable_iff s r).2 hf]
  | cons q qs ih =>
    simp only [List.cons_append, List.find?, unreadable_of_isWritten (h q (by simp))]
    exact ih fun q hq => h q (by simp [hq])

theorem checksOneOperand {i : Instr} {a : Byte} {rs : List Byte} (h1 : regOperands i = [a]) (h2 : readRegs i = rs)
    (s : State) : ChecksOneOperand i a rs s := by
  refine ⟨fun h => faultTaken_of_regCheck ?_, fun h before r after hrs hf hw => faultTaken_of_regCheck ?_⟩
  · simp [regCheck, h1, (invalidIndex_iff a).2 h]
  · simp only [regCheck, h1, List.find?, invalidIndex_of_lt h, h2, hrs, find_unreadable s before r after hw hf]

theorem checksTwoOperands {i : Instr} {a b : Byte} (h1 : regOperands i = [a, b]) (h2 : readRegs i = [a, b])
    (s : State) : ChecksTwoOperands i a b s := by
  refine ⟨fun h => faultTaken_of_regCheck ?_, fun h h' => faultTaken_of_regCheck ?_,
    fun h h' hf => faultTaken_of_regCheck ?_, fun h h' hw hf => faultTaken_of_regCheck ?_⟩
  · simp [regCheck, h1, (invalidIndex_iff a).2 h]
  · simp [regCheck, h1, List.find?, invalidIndex_of_lt h, (invalidIndex_iff b).2 h']
  · simp [regCheck, h1, h2, List.find?, invalidIndex_of_lt h, invalidIndex_of_lt h', (unreadable_iff s a).2 hf]
  · simp [regCheck, h1, h2, List.find?, invalidIndex_of_lt h, invalidIndex_of_lt h', (unreadable_iff s b).2 hf,
      unreadable_of_isWritten hw]

/-! ## Register results -/

/-- The byte `fit` answers is the fitted value (41_alu.md R131). -/
theorem toNat_fit {p : OverflowPolicy} {v : Int} {r : Byte} (h : fit p v = .ok r) :
    (r.toNat : Int) = fittedValue p v ∧ (p = .fault → 0 ≤ v ∧ v ≤ 255) := by
  cases p with
  | wrap =>
    injection h with h
    subst h
    refine ⟨?_, fun h => by cases h⟩
    simp only [BitVec.toNat_ofInt, fittedValue]
    omega
  | saturate =>
    injection h with h
    subst h
    refine ⟨?_, fun h => by cases h⟩
    simp only [BitVec.toNat_ofInt, fittedValue]
    omega
  | fault =>
    by_cases hc : v < 0 ∨ v > 255
    · simp [fit, hc] at h
    · simp only [fit, if_neg hc] at h
      injection h with h
      subst h
      refine ⟨?_, fun _ => by omega⟩
      simp only [BitVec.toNat_ofInt, fittedValue]
      omega

/-- What an instruction whose handler writes a register does. -/
theorem exec_setX {i : Instr} {s : State} {a v : Byte} (hk : regCheck i s = none) (ha : a.toNat < 8)
    (hh : handlerOf i s = .next (s.setX a v)) :
    ∃ t, exec i s = .next t ∧ t.x a = v ∧ t.pc = s.pc + i.operands.length + 1 ∧ OnlyRegister s t a := by
  rw [exec_of_regCheck_none hk, hh]
  exact ⟨_, rfl, x_setX_self s ha v, rfl, onlyRegister_setX s v ha _⟩

/-- What an instruction whose handler writes a fitted result does. -/
theorem exec_writeFit {i : Instr} {s : State} {a : Byte} {v : Int} (hk : regCheck i s = none) (ha : a.toNat < 8)
    (hh : handlerOf i s = writeFit a v s) :
    (Fits s v → ∃ t, exec i s = .next t ∧ ((t.x a).toNat : Int) = fittedValue s.cfg.overflow v ∧
      t.pc = s.pc + i.operands.length + 1 ∧ OnlyRegister s t a) ∧
    (¬ Fits s v → ∃ t, exec i s = .next t ∧ FaultTaken s t (.arithmeticOverflow v)) := by
  rw [exec_of_regCheck_none hk, hh]
  rcases writeFit_cases a v s with ⟨hp, ho, w⟩ | ⟨r, e, w⟩ <;> rw [w]
  · refine ⟨fun h => ?_, fun _ => ⟨_, rfl, faultTaken_takeFault s _⟩⟩
    have := h hp
    omega
  · refine ⟨fun _ => ⟨_, rfl, ?_, rfl, onlyRegister_setX s r ha _⟩, fun h => absurd (toNat_fit e).2 h⟩
    rw [← (toNat_fit e).1]
    congr 2
    exact x_setX_self s ha r

/-! ## The stack instructions -/

theorem exec_push {s : State} {a : Byte} (hk : regCheck (.push a) s = none) (h1 : s.cfg.stackLimit < s.sp.toNat)
    (h2 : s.sp.toNat - 1 < s.cfg.memSize) :
    exec (.push a) s = .next { pushed (fun s1 => s1.x a) s with pc := s.pc + 1 + 1 } := by
  rw [exec_of_regCheck_none hk]
  rcases push_cases (fun s1 => s1.x a) s with ⟨h, w⟩ | ⟨h, h', w⟩ | ⟨-, -, w⟩
  · omega
  · omega
  · simp only [handlerOf, w]
    rfl

theorem exec_pop {s : State} {a : Byte} (hk : regCheck (.pop a) s = none) (h1 : s.sp.toNat < 0xF4)
    (h2 : s.sp.toNat < s.cfg.memSize) :
    exec (.pop a) s = .next { (s.setX 7 (s.sp + 1)).setX a (s.byteAt s.sp.toNat) with pc := s.pc + 1 + 1 } := by
  rw [exec_of_regCheck_none hk]
  rcases pop_cases s with ⟨h, w⟩ | ⟨h, h', w⟩ | ⟨-, -, w⟩
  · omega
  · omega
  · simp only [handlerOf, w]
    rfl

theorem exec_call {s : State} {a : Byte} (hk : regCheck (.call a) s = none) (h0 : s.pc + 2 < s.cfg.memSize)
    (h1 : s.cfg.stackLimit < s.sp.toNat) (h2 : s.sp.toNat - 1 < s.cfg.memSize) :
    exec (.call a) s =
      .next
        { pushed (fun _ => BitVec.ofNat 8 (s.pc + 2)) s with pc := ((s.setX 7 (s.sp - 1)).x a).toNat } := by
  rw [exec_of_regCheck_none hk]
  rcases push_cases (fun _ => BitVec.ofNat 8 (s.pc + 2)) s with ⟨h, w⟩ | ⟨h, h', w⟩ | ⟨-, -, w⟩
  · omega
  · omega
  · simp only [handlerOf, if_neg (show ¬ s.pc + 2 ≥ s.cfg.memSize by omega), w]
    rfl

theorem exec_ret {s : State} (hk : regCheck .ret s = none) (h1 : s.sp.toNat < 0xF4)
    (h2 : s.sp.toNat < s.cfg.memSize) :
    exec .ret s = .next { s.setX 7 (s.sp + 1) with pc := (s.byteAt s.sp.toNat).toNat } := by
  rw [exec_of_regCheck_none hk]
  rcases pop_cases s with ⟨h, w⟩ | ⟨h, h', w⟩ | ⟨-, -, w⟩
  · omega
  · omega
  · simp only [handlerOf, w]
    rfl

end Machine

end Sys2Proof
end

