-- ==== Sys2Proof/Laws/PerInstr.lean ====
section
/-! SUPPORT. Facts about every instruction as syntax, one lemma per constructor. EncodedLength: an encoding is as long as
its first byte says (spec/30_encoding.md R70, R71). -/

namespace Sys2Proof.Laws.EncodedLength

/-- The encoding has the instruction's length, which is the operand count in bits 7:6 of its first byte plus 1. -/
def Statement (i : Instr) : Prop :=
  ∀ c bs, Config.Valid c → encode c i = some bs →
    bs.length = i.length ∧ bs.head?.map (fun op => opcount op + 1) = some i.length

/-- The one proof the lemmas below share. -/
theorem of_encode (i : Instr) : Statement i := by
  intro c bs v e
  obtain ⟨op, ho, rfl⟩ := Option.map_eq_some_iff.1 e
  have := opcount_of_dispatch v ((opcode_eq_some_iff v).1 ho)
  simp [Instr.length, this, Instr.length_operands]

theorem hlt : Statement .hlt := of_encode _
theorem call (a : Byte) : Statement (.call a) := of_encode _
theorem ret : Statement .ret := of_encode _
theorem dec (a : Byte) : Statement (.dec a) := of_encode _
theorem inc (a : Byte) : Statement (.inc a) := of_encode _
theorem not (a : Byte) : Statement (.not a) := of_encode _
theorem ldi (a i : Byte) : Statement (.ldi a i) := of_encode _
theorem prn (a : Byte) : Statement (.prn a) := of_encode _
theorem push (a : Byte) : Statement (.push a) := of_encode _
theorem pop (a : Byte) : Statement (.pop a) := of_encode _
theorem add (a b : Byte) : Statement (.add a b) := of_encode _
theorem and (a b : Byte) : Statement (.and a b) := of_encode _
theorem cmp (a b : Byte) : Statement (.cmp a b) := of_encode _
theorem div (a b : Byte) : Statement (.div a b) := of_encode _
theorem mod (a b : Byte) : Statement (.mod a b) := of_encode _
theorem mul (a b : Byte) : Statement (.mul a b) := of_encode _
theorem or (a b : Byte) : Statement (.or a b) := of_encode _
theorem sub (a b : Byte) : Statement (.sub a b) := of_encode _
theorem xor (a b : Byte) : Statement (.xor a b) := of_encode _
theorem nop : Statement .nop := of_encode _

end Sys2Proof.Laws.EncodedLength
end

