-- ==== Sys2Proof/Machine/Assembly.lean ====
section
/-! DEFINITION. The assembly syntax (spec/30_encoding.md R79) and the object file's lines (R80, for information), as
printers. They have no semantics: the machine reads bytes (spec/92_eei_decisions.md D25, D26). -/

namespace Sys2Proof.Machine

/-- The mnemonic, in capitals (30_encoding.md R74, R79). -/
def mnemonic : Operation → String
  | .hlt => "HLT"
  | .call => "CALL"
  | .ret => "RET"
  | .dec => "DEC"
  | .inc => "INC"
  | .not => "NOT"
  | .ldi => "LDI"
  | .prn => "PRN"
  | .push => "PUSH"
  | .pop => "POP"
  | .add => "ADD"
  | .and => "AND"
  | .cmp => "CMP"
  | .div => "DIV"
  | .mod => "MOD"
  | .mul => "MUL"
  | .or => "OR"
  | .sub => "SUB"
  | .xor => "XOR"
  | .nop => "NOP"

/-- A byte in decimal. -/
def decimal (v : Byte) : String := String.ofList (Nat.toDigits 10 v.toNat)

/-- The operand text: registers `R0`-`R7`, an immediate in decimal, separated by a comma (30_encoding.md R79). -/
def operandText : Instr → List String
  | .ldi a i => ["R" ++ decimal a, decimal i]
  | i => i.operands.map fun a => "R" ++ decimal a

/-- One instruction in the assembly syntax (30_encoding.md R79). -/
def asm (i : Instr) : String :=
  if i.operands = [] then mnemonic i.operation
  else mnemonic i.operation ++ " " ++ String.intercalate "," (operandText i)

/-- One line of an object file: the byte as 8 binary digits, most significant first (30_encoding.md R80). -/
def objectLine (v : Byte) : String :=
  String.ofList ((List.range 8).map fun k => if v.getLsbD (7 - k) then '1' else '0')

end Sys2Proof.Machine
end

