-- ==== Sys2Proof/Tests/Slice0.lean ====
section
/-! SUPPORT. Tests on fixed values, taken from the spec's own words and vectors (spec/95_test_vectors.md: V<n>), and one
witness for the hypotheses of each statement in Certificates/Slice0/Obligations.lean. -/

namespace Sys2Proof.Tests

open Sys2Proof.Machine

/-! ## Small states -/

/-- Registers written one after the other. -/
def writeAll (s : State) : List (Byte × Byte) → State
  | [] => s
  | (a, v) :: xs => writeAll (s.setX a v) xs

/-- Reset in a configuration, pc moved, bytes placed at pc, registers written. -/
def small (c : Config) (pc : Nat) (bytes : List Byte) (xs : List (Byte × Byte)) : State :=
  writeAll (State.load { State.reset with cfg := c, pc := pc } pc bytes) xs

/-- The convention of the vectors: the instruction stands at 0x10. -/
def at16 (c : Config) (bytes : List Byte) (xs : List (Byte × Byte)) : State := small c 0x10 bytes xs

/-- The state after one step. -/
def after (s : State) : State :=
  match step s with
  | .next t => t
  | .fault _ => s
  | .refused _ => s

/-- One register, pc, the run state and the fault record. -/
def look (r : Byte) (s : State) : Byte × Nat × RunState × Option FaultRecord := (s.x r, s.pc, s.run, s.fault)

/-- What a fault at `pc` leaves of a register that held `v`. -/
def faulted (v : Byte) (pc : Nat) (c : FaultCause) : Byte × Nat × RunState × Option FaultRecord :=
  (v, pc, .faulted, some ⟨c, pc⟩)

def sat : Config := { overflow := .saturate }
def flt : Config := { overflow := .fault }
def strict : Config := { unwrittenReads := .fault }
def tiny : Config := { memSize := 16 }
def withAnd : Config := { andOpcode := some 0xB4 }

/-! ## Well-formedness: each check refuses an ill-formed term -/

theorem test_wellFormed_accepts : (Instr.add 7 0).wellFormed {} = true ∧ (Instr.ldi 7 0xFF).wellFormed {} = true ∧
    (Instr.and 0 1).wellFormed withAnd = true := by decide
theorem test_wellFormed_refuses_call : (Instr.call 8).wellFormed {} = false := by decide
theorem test_wellFormed_refuses_dec : (Instr.dec 8).wellFormed {} = false := by decide
theorem test_wellFormed_refuses_inc : (Instr.inc 8).wellFormed {} = false := by decide
theorem test_wellFormed_refuses_not : (Instr.not 8).wellFormed {} = false := by decide
theorem test_wellFormed_refuses_ldi : (Instr.ldi 8 0).wellFormed {} = false := by decide
theorem test_wellFormed_refuses_prn : (Instr.prn 8).wellFormed {} = false := by decide
theorem test_wellFormed_refuses_push : (Instr.push 8).wellFormed {} = false := by decide
theorem test_wellFormed_refuses_pop : (Instr.pop 0xFF).wellFormed {} = false := by decide
theorem test_wellFormed_refuses_add : (Instr.add 8 0).wellFormed {} = false ∧ (Instr.add 0 8).wellFormed {} = false := by
  decide
theorem test_wellFormed_refuses_and : (Instr.and 8 0).wellFormed withAnd = false ∧
    (Instr.and 0 8).wellFormed withAnd = false ∧ (Instr.and 0 0).wellFormed {} = false := by decide
theorem test_wellFormed_refuses_cmp : (Instr.cmp 8 0).wellFormed {} = false ∧ (Instr.cmp 0 8).wellFormed {} = false := by
  decide
theorem test_wellFormed_refuses_div : (Instr.div 8 0).wellFormed {} = false ∧ (Instr.div 0 8).wellFormed {} = false := by
  decide
theorem test_wellFormed_refuses_mod : (Instr.mod 8 0).wellFormed {} = false ∧ (Instr.mod 0 8).wellFormed {} = false := by
  decide
theorem test_wellFormed_refuses_mul : (Instr.mul 8 0).wellFormed {} = false ∧ (Instr.mul 0 8).wellFormed {} = false := by
  decide
theorem test_wellFormed_refuses_or : (Instr.or 8 0).wellFormed {} = false ∧ (Instr.or 0 8).wellFormed {} = false := by
  decide
theorem test_wellFormed_refuses_sub : (Instr.sub 8 0).wellFormed {} = false ∧ (Instr.sub 0 8).wellFormed {} = false := by
  decide
theorem test_wellFormed_refuses_xor : (Instr.xor 8 0).wellFormed {} = false ∧ (Instr.xor 0 8).wellFormed {} = false := by
  decide

/-! ## Decoding, from the binary column of 30_encoding.md R74 -/

theorem test_decode_f0 : decode {} [0b00000001] = .ok (.hlt, []) ∧ decode {} [0b00001001] = .ok (.ret, []) ∧
    decode {} [0b00000000] = .ok (.nop, []) := by decide
theorem test_decode_f1r : decode {} [0b01001000, 1] = .ok (.call 1, []) ∧
    decode {} [0b01111001, 2] = .ok (.dec 2, []) ∧ decode {} [0b01111000, 3] = .ok (.inc 3, []) ∧
    decode {} [0b01110000, 4] = .ok (.not 4, []) ∧ decode {} [0b01000011, 5] = .ok (.prn 5, []) ∧
    decode {} [0b01001101, 6] = .ok (.push 6, []) ∧ decode {} [0b01001100, 7] = .ok (.pop 7, []) := by decide
theorem test_decode_f2 : decode {} [0b10011001, 1, 200] = .ok (.ldi 1 200, []) ∧
    decode {} [0b10110011, 1, 2] = .ok (.add 1 2, []) ∧ decode {} [0b10100000, 1, 2] = .ok (.cmp 1 2, []) ∧
    decode {} [0b10101011, 1, 2] = .ok (.div 1 2, []) ∧ decode {} [0b10101100, 1, 2] = .ok (.mod 1 2, []) ∧
    decode {} [0b10101010, 1, 2] = .ok (.mul 1 2, []) ∧ decode {} [0b10110001, 1, 2] = .ok (.or 1 2, []) ∧
    decode {} [0b10101001, 1, 2] = .ok (.sub 1 2, []) ∧ decode {} [0b10110010, 1, 2] = .ok (.xor 1 2, []) := by decide
/-- V24 and V25: the byte 0xB4 is AND only where AND_OPCODE is 0xB4. -/
theorem test_decode_and : decode withAnd [0xB4, 0, 1] = .ok (.and 0 1, []) ∧
    decode {} [0xB4, 0, 1] = .error (.unknownOpcode 0xB4) := by decide
/-- 30_encoding.md R73, R82: count 3 is never assigned; 0x02 has length 1 and is unassigned. -/
theorem test_decode_rejects : decode {} [0xC0] = .error (.unknownOpcode 0xC0) ∧
    decode {} [0x02] = .error (.unknownOpcode 0x02) ∧ decode {} [0x99, 0] = .error (.missingByte 2) := by decide
/-- The table's numbering: the opcode is bits 7..0, `a` bits 15..8, `b` bits 23..16. -/
theorem test_decodeTableWord : decodeTableWord 24 0x0100AA = some (.mul 0 1) ∧ decodeTableWord 8 0x48 = some (.call 0) ∧
    decodeTableWord 8 0xFF = none := by decide
theorem test_withFetchWord_runs : look 1 (after (State.reset.withFetchWord 24 0x080199)) = (8, 3, .running, none) := by
  decide
theorem test_encode_mul : encode {} (.mul 0 1) = some [0b10101010, 0b00000000, 0b00000001] := by decide

/-! ## ALU vectors (95_test_vectors.md L2.1) -/

/-- V5. -/
theorem test_add_wraps : look 0 (after (at16 {} [0xB3, 0, 1] [(0, 200), (1, 100)])) = (44, 0x13, .running, none) := by decide
/-- V7. -/
theorem test_add_faults : look 0 (after (at16 flt [0xB3, 0, 1] [(0, 200), (1, 100)])) =
    faulted 200 0x10 (.arithmeticOverflow 300) := by decide
/-- V11. -/
theorem test_sub_wraps : look 0 (after (at16 {} [0xA9, 0, 1] [(0, 3), (1, 5)])) = (254, 0x13, .running, none) := by decide
/-- V12. -/
theorem test_sub_saturates : look 0 (after (at16 sat [0xA9, 0, 1] [(0, 3), (1, 5)])) = (0, 0x13, .running, none) := by decide
/-- V19. -/
theorem test_mul_wraps : look 0 (after (at16 {} [0xAA, 0, 0] [(0, 255)])) = (1, 0x13, .running, none) := by decide
/-- V17. -/
theorem test_mul_saturates : look 0 (after (at16 sat [0xAA, 0, 1] [(0, 16), (1, 16)])) = (255, 0x13, .running, none) := by
  decide
/-- V25. -/
theorem test_and : look 0 (after (at16 withAnd [0xB4, 0, 1] [(0, 0xCA), (1, 0x0F)])) = (0x0A, 0x13, .running, none) := by
  decide
/-- V24. -/
theorem test_and_absent : look 0 (after (at16 {} [0xB4, 0, 1] [(0, 0xCA), (1, 0x0F)])) =
    faulted 0xCA 0x10 (.unknownOpcode 0xB4) := by decide
/-- V26. -/
theorem test_or : look 0 (after (at16 {} [0xB1, 0, 1] [(0, 0xCA), (1, 0x0F)])) = (0xCF, 0x13, .running, none) := by decide
/-- V27. -/
theorem test_xor : look 0 (after (at16 {} [0xB2, 0, 1] [(0, 0xCA), (1, 0x0F)])) = (0xC5, 0x13, .running, none) := by decide
/-- V30. -/
theorem test_not : look 2 (after (at16 {} [0x70, 2] [(2, 0x38)])) = (0xC7, 0x12, .running, none) := by decide
/-- V31. -/
theorem test_div : look 3 (after (at16 {} [0xAB, 3, 4] [(3, 7), (4, 2)])) = (3, 0x13, .running, none) := by decide
/-- V33. -/
theorem test_div_by_zero : look 3 (after (at16 {} [0xAB, 3, 4] [(3, 7), (4, 0)])) =
    faulted 7 0x10 (.divisionByZero 4) := by decide
/-- V39. -/
theorem test_mod : look 3 (after (at16 {} [0xAC, 3, 4] [(3, 5), (4, 9)])) = (5, 0x13, .running, none) := by decide
/-- V38. -/
theorem test_mod_by_zero : look 3 (after (at16 {} [0xAC, 3, 4] [(3, 7), (4, 0)])) =
    faulted 7 0x10 (.divisionByZero 4) := by decide
/-- V40. -/
theorem test_cmp_equal : (after (at16 {} [0xA0, 0, 1] [(0, 5), (1, 5)])).fl = ⟨true, false, false⟩ := by decide
/-- V41, with FL set before: E is cleared, G and L are kept (41_alu.md R144). -/
theorem test_cmp_unequal :
    (after { at16 {} [0xA0, 0, 1] [(0, 5), (1, 6)] with fl := ⟨true, true, true⟩ }).fl = ⟨false, true, true⟩ := by decide
/-- V44. -/
theorem test_inc_wraps : look 3 (after (at16 {} [0x78, 3] [(3, 255)])) = (0, 0x12, .running, none) := by decide
/-- V50. -/
theorem test_inc_sp : look 7 (after (at16 {} [0x78, 7] [])) = (0xF5, 0x12, .running, none) := by decide
/-- V47. -/
theorem test_dec_wraps : look 3 (after (at16 {} [0x79, 3] [(3, 0)])) = (255, 0x12, .running, none) := by decide
/-- V49. -/
theorem test_dec_faults : look 3 (after (at16 flt [0x79, 3] [(3, 0)])) =
    faulted 0 0x10 (.arithmeticOverflow (-1)) := by decide

/-! ## Load, output and control vectors (L2.2) -/

/-- V52: an immediate over 7 is legal, and the register counts as written. -/
theorem test_ldi : look 0 (after (at16 {} [0x99, 0, 0xFF] [])) = (0xFF, 0x13, .running, none) ∧
    (after (at16 {} [0x99, 0, 0xFF] [])).isWritten 0 = true := by decide
/-- V62: operand B outside memory. -/
theorem test_ldi_operand_outside : look 0 (after (small tiny 14 [0x99, 0] [])) =
    faulted 0 14 (.addressOutOfBounds 16) := by decide
/-- V56. -/
theorem test_prn_sp : (after (at16 {} [0x43, 7] [])).out = [244] := by decide
/-- V57: the model fault of 60_exceptions.md R209, under the policy that takes it. -/
theorem test_prn_unwritten : look 0 (after (at16 strict [0x43, 0] [])) =
    faulted 0 0x10 (.unwrittenRegisterRead 0) := by decide
/-- V59: HLT in the last byte of memory does not fault. -/
theorem test_hlt_last_byte : look 0 (after (small {} 0xFF [0x01] [])) = (0, 0x100, .halted, none) := by decide
/-- V61. -/
theorem test_nop_last_byte : look 0 (after (small tiny 15 [0x00] [])) = (0, 16, .running, none) := by decide

/-! ## Stack vectors (L2.3) -/

/-- V66. -/
theorem test_push : look 7 (after (at16 {} [0x4D, 0] [(0, 5)])) = (0xF3, 0x12, .running, none) ∧
    (after (at16 {} [0x4D, 0] [(0, 5)])).byteAt 0xF3 = 5 := by decide
/-- V67: PUSH R7 stores the decremented SP. -/
theorem test_push_sp : (after (at16 {} [0x4D, 7] [])).byteAt 0xF3 = 0xF3 := by decide
/-- V70. -/
theorem test_pop : (after ((at16 {} [0x4C, 0] [(0, 0), (7, 0xF3)]).setByte 0xF3 5)).x 0 = 5 ∧
    (after ((at16 {} [0x4C, 0] [(0, 0), (7, 0xF3)]).setByte 0xF3 5)).sp = 0xF4 := by decide
/-- V72: POP R7 ends with the popped byte in SP. -/
theorem test_pop_sp : look 7 (after ((at16 {} [0x4C, 7] [(7, 0xF3)]).setByte 0xF3 0x20)) = (0x20, 0x12, .running, none) := by
  decide
/-- V75. -/
theorem test_call : look 7 (after (at16 {} [0x48, 1] [(1, 0x30)])) = (0xF3, 0x30, .running, none) ∧
    (after (at16 {} [0x48, 1] [(1, 0x30)])).byteAt 0xF3 = 0x12 := by decide
/-- V76: CALL R7 jumps to the decremented SP. -/
theorem test_call_sp : look 7 (after (at16 {} [0x48, 7] [])) = (0xF3, 0xF3, .running, none) := by decide
/-- V81. -/
theorem test_ret : look 7 (after ((at16 {} [0x09] [(7, 0xF3)]).setByte 0xF3 0x12)) = (0xF4, 0x12, .running, none) := by decide
/-- V82. -/
theorem test_ret_underflow : look 7 (after (at16 {} [0x09] [])) = faulted 0xF4 0x10 (.stackUnderflow 0xF4) := by decide

/-! ## The order of the checks (L2.4) -/

/-- V86: a is checked before b. -/
theorem test_regcheck_order : look 0 (after (at16 {} [0xB3, 8, 9] [])) =
    faulted 0 0x10 (.invalidRegisterIndex 8) := by decide
/-- V89: a fetch outside memory keeps IR. -/
theorem test_fetch_outside : (after { small tiny 16 [] [] with ir := 0x5A }).ir = 0x5A := by decide

/-! ## Ports and text -/

/-- L1.3 and 60_exceptions.md R201: UnknownOpcode(0xFF) at 0 is code 1 with that info. -/
theorem test_statusPort : (after (small {} 0 [0xFF] [])).statusPort = ⟨2, 1, some 0xFF, some 0⟩ := by decide
/-- 42_handlers.md R174. -/
theorem test_renderOut : renderOut [72, 0, 255] = ['7', '2', '\n', '0', '\n', '2', '5', '5', '\n'] := by decide
/-- 20_memory.md R60: opcode, operand A, operand B, then the write of the push. -/
theorem test_stepAccesses : (at16 {} [0x4D, 0] [(0, 5)]).stepAccesses =
    [.read 0x10, .read 0x11, .read 0x12, .write 0xF3 5] := by decide
/-- 30_encoding.md R79, R80. -/
theorem test_asm : asm (.mul 0 1) = "MUL R0,R1" ∧ asm (.ldi 0 8) = "LDI R0,8" ∧ asm .hlt = "HLT" := by decide
theorem test_objectLine : objectLine 0xAA = "10101010" := by decide
/-- The boot of 95_test_vectors.md P6 (b): the program stands at RESET_PC. -/
theorem test_boot_resetPc : look 0 (after (boot { resetPc := 0x40 } ResetDraw.zero [0x99, 0, 1, 1])) =
    (1, 0x43, .running, none) := by decide
/-- The numbering of bits of 10_state.md R32. -/
theorem test_flagsByte : (⟨true, false, true⟩ : Flags).toByte = 0b00000101 := by decide

/-! ## Witnesses

One theorem for each statement with hypotheses: a concrete state and operands that meet them, clause by clause at the
boundary of its range where a statement has several. They prove nothing of the statements themselves. -/

/-- An admitted configuration with AND_OPCODE present. -/
theorem witness_OpcodeTableRowsDecode : withAnd.Valid ∧ withAnd.andOpcode = some 0xB4 := by decide

/-- The two ends of the range of AND_OPCODE are admitted, 0xB3 and the byte above the range are not. -/
theorem witness_AndOpcodeIsAParameter : ({ andOpcode := some 0x80 } : Config).Valid ∧
    ({ andOpcode := some 0xBF } : Config).Valid ∧ Config.default.andOpcode = none ∧
    ¬ ({ andOpcode := some 0xB3 } : Config).Valid ∧ ¬ ({ andOpcode := some 0xC0 } : Config).Valid := by decide

theorem witness_DecodeOfEncode : withAnd.Valid ∧ ((Instr.and 0xFF 8).operation = .and → withAnd.andOpcode ≠ none) ∧
    Config.default.Valid ∧ ((Instr.ldi 7 0).operation = .and → Config.default.andOpcode ≠ none) := by decide

theorem witness_EncodeOfDecode : withAnd.Valid ∧ decode withAnd [0xB4, 0, 1, 9] = .ok (.and 0 1, [9]) := by decide

theorem witness_UnassignedOpcodesAreUnknown : withAnd.Valid ∧ Config.default.Valid ∧
    (0xB4 : Byte) ∉ assignedOpcodes ∧ Config.default.andOpcode ≠ some 0xB4 ∧ withAnd.andOpcode = some 0xB4 := by decide

theorem witness_LengthIsInTheFirstByte : Config.default.Valid ∧ decode {} [0x01] = .ok (.hlt, []) ∧
    decode {} [0x99, 0, 8, 1] = .ok (.ldi 0 8, [1]) := by decide

theorem witness_UndeclaredBytesNeverMatter : Config.default.Valid ∧ decode {} [0x43, 5, 1] = .ok (.prn 5, [1]) ∧
    ([5, 9, 9] : List Byte).take (opcount 0x43) = [5, 1].take (opcount 0x43) := by decide

/-- An instruction at pc, in the middle of memory and in its last byte. -/
theorem witness_StepRunsTheDecodedInstruction :
    ((at16 {} [0xAA, 0, 1] []).run = .running ∧ (at16 {} [0xAA, 0, 1] []).pc < (at16 {} [0xAA, 0, 1] []).cfg.memSize ∧
      decode {} (bytesAtPc (at16 {} [0xAA, 0, 1] [])) = .ok (.mul 0 1, [])) ∧
    (small tiny 15 [0x01] []).pc < tiny.memSize ∧
    decode tiny (bytesAtPc (small tiny 15 [0x01] [])) = .ok (.hlt, []) := by decide

/-- pc at MEM_SIZE, and in the last byte of memory. -/
theorem witness_FetchReadsAtPcOrFaults : (small tiny 16 [] []).run = .running ∧
    (small tiny 16 [] []).cfg.memSize ≤ (small tiny 16 [] []).pc ∧ (small tiny 15 [] []).run = .running ∧
    (small tiny 15 [] []).pc < (small tiny 15 [] []).cfg.memSize := by decide

theorem witness_UnassignedOpcodeFaults : (at16 {} [0xB4] []).cfg.Valid ∧ (at16 {} [0xB4] []).run = .running ∧
    (at16 {} [0xB4] []).pc < (at16 {} [0xB4] []).cfg.memSize ∧
    (at16 {} [0xB4] []).byteAt (at16 {} [0xB4] []).pc ∉ assignedOpcodes ∧
    (at16 {} [0xB4] []).cfg.andOpcode ≠ some ((at16 {} [0xB4] []).byteAt (at16 {} [0xB4] []).pc) := by decide

/-- LDI with its first operand outside memory, with its second just outside, and with both just inside. -/
theorem witness_DeclaredOperandsMustBeInMemory : tiny.Valid ∧ dispatch tiny 0x99 = some .ldi ∧
    ((small tiny 15 [0x99] []).byteAt 15 = 0x99 ∧ 1 ≤ (0x99 : Byte).toNat / 64 ∧ tiny.memSize ≤ 15 + 1) ∧
    ((small tiny 14 [0x99] []).byteAt 14 = 0x99 ∧ 2 ≤ (0x99 : Byte).toNat / 64 ∧ 14 + 1 < tiny.memSize ∧
      tiny.memSize ≤ 14 + 2) ∧
    ((small tiny 13 [0x99] []).byteAt 13 = 0x99 ∧ 13 + (0x99 : Byte).toNat / 64 < tiny.memSize) := by decide

theorem witness_StoppedCoreChangesOnlyByReset : (after (at16 {} [0x01] [])).run ≠ .running ∧
    (after (at16 {} [0xFF] [])).run ≠ .running := by decide

/-- A step that faults after its fetch, and one whose fetch faults. -/
theorem witness_FaultingStepIsPrecise :
    (step (at16 {} [0xFF] []) = .next (after (at16 {} [0xFF] [])) ∧ (after (at16 {} [0xFF] [])).run = .faulted) ∧
    (step (small tiny 16 [] []) = .next (after (small tiny 16 [] [])) ∧
      (after (small tiny 16 [] [])).run = .faulted) := by
  refine ⟨⟨rfl, ?_⟩, rfl, ?_⟩ <;> decide

/-- A faulting step, a sequential one, and a jump. -/
theorem witness_PcAdvancesByTheDeclaredLength :
    (step (at16 {} [0xFF] []) = .next (after (at16 {} [0xFF] [])) ∧ (after (at16 {} [0xFF] [])).run = .faulted) ∧
    (step (at16 {} [0x99, 0, 1] []) = .next (after (at16 {} [0x99, 0, 1] [])) ∧
      (after (at16 {} [0x99, 0, 1] [])).run ≠ .faulted ∧ (after (at16 {} [0x99, 0, 1] [])).ir ≠ 0x48 ∧
      (after (at16 {} [0x99, 0, 1] [])).ir ≠ 0x09) ∧
    (step (at16 {} [0x48, 7] []) = .next (after (at16 {} [0x48, 7] [])) ∧
      (after (at16 {} [0x48, 7] [])).run ≠ .faulted ∧ (after (at16 {} [0x48, 7] [])).ir = 0x48) := by
  refine ⟨⟨rfl, ?_⟩, ⟨rfl, ?_⟩, rfl, ?_⟩ <;> decide

/-- A state that is not reset: an instruction and a register written, at the top of the address space. -/
theorem witness_StepKeepsTheInvariant : Inv (small {} 0xFF [0x01] [(0, 5)]) ∧
    step (small {} 0xFF [0x01] [(0, 5)]) = .next (after (small {} 0xFF [0x01] [(0, 5)])) := by
  refine ⟨⟨?_, ?_, ?_, ?_, ?_, ?_⟩, rfl⟩ <;> decide

theorem witness_ResetMeetsTheInvariant : (after (at16 {} [0xFF] [])).cfg.Valid ∧
    Memory.wf (after (at16 {} [0xFF] [])).mem ∧
    Memory.within (after (at16 {} [0xFF] [])).cfg.memSize (after (at16 {} [0xFF] [])).mem := by decide

/-- A step into UnknownOpcode. Steps into the kinds that name the instruction at pc are those of `test_div_by_zero`, `test_add_faults`,
`test_regcheck_order` and `test_prn_unwritten`. -/
theorem witness_StepKeepsTheRecordTruthful : (at16 {} [0xFF] []).cfg.Valid ∧ RecordTruthful (at16 {} [0xFF] []) ∧
    step (at16 {} [0xFF] []) = .next (after (at16 {} [0xFF] [])) ∧ (after (at16 {} [0xFF] [])).fault ≠ none := by
  refine ⟨?_, ⟨fun _ => rfl, fun r h => by cases h⟩, rfl, ?_⟩ <;> decide

theorem witness_OnlyCmpWritesFlags : step (at16 {} [0xA0, 0, 0] []) = .next (after (at16 {} [0xA0, 0, 0] [])) ∧
    (after (at16 {} [0xA0, 0, 0] [])).fl ≠ (at16 {} [0xA0, 0, 0] []).fl := by
  refine ⟨rfl, ?_⟩
  decide

theorem witness_OnlyPrnAppendsToOutput : step (at16 {} [0x43, 7] []) = .next (after (at16 {} [0x43, 7] [])) ∧
    (after (at16 {} [0x43, 7] [])).out ≠ (at16 {} [0x43, 7] []).out := by
  refine ⟨rfl, ?_⟩
  decide

theorem witness_OnlyPushAndCallWriteMemory : step (at16 {} [0x4D, 7] []) = .next (after (at16 {} [0x4D, 7] [])) ∧
    (after (at16 {} [0x4D, 7] [])).byteAt 0xF3 ≠ (at16 {} [0x4D, 7] []).byteAt 0xF3 := by
  refine ⟨rfl, ?_⟩
  decide

/-- A register changed as an operand, and SP changed by a push. -/
theorem witness_RegisterWritesFollowTheTable : Config.default.Valid ∧
    (step (at16 {} [0x99, 0, 9] []) = .next (after (at16 {} [0x99, 0, 9] [])) ∧
      (after (at16 {} [0x99, 0, 9] [])).x 0 ≠ (at16 {} [0x99, 0, 9] []).x 0) ∧
    (step (at16 {} [0x4D, 0] []) = .next (after (at16 {} [0x4D, 0] [])) ∧
      (after (at16 {} [0x4D, 0] [])).x 7 ≠ (at16 {} [0x4D, 0] []).x 7) := by
  refine ⟨?_, ⟨rfl, ?_⟩, rfl, ?_⟩ <;> decide

theorem witness_OnlyHltAndFaultsEndTheRun : (at16 {} [0x01] []).run = .running ∧ (at16 {} [0x01] []).fault = none ∧
    step (at16 {} [0x01] []) = .next (after (at16 {} [0x01] [])) := ⟨by decide, by decide, rfl⟩

theorem witness_ParametersNeverChange : step (at16 sat [0x01] []) = .next (after (at16 sat [0x01] [])) := rfl

/-! ### REGCHECK: the hypotheses of `ChecksTwoOperands` and `ChecksOneOperand`, shared by every statement with them -/

/-- Each clause of `ChecksTwoOperands`: a = 8; b = 8; a unwritten; a written and b unwritten. -/
theorem witness_ChecksTwoOperands : 8 ≤ (8 : Byte).toNat ∧ (7 : Byte).toNat < 8 ∧
    FaultsOnRead (small strict 0 [] []) 0 ∧
    ((small strict 0 [] [(0, 1)]).isWritten 0 = true ∧ FaultsOnRead (small strict 0 [] [(0, 1)]) 6) := by
  refine ⟨by decide, by decide, ⟨rfl, ?_⟩, ?_, rfl, ?_⟩ <;> decide

/-- Each clause of `ChecksOneOperand`: a = 8; the operand unwritten, alone and behind R7 in the list. -/
theorem witness_ChecksOneOperand : 8 ≤ (8 : Byte).toNat ∧
    (([6] : List Byte) = [] ++ 6 :: [] ∧ FaultsOnRead (small strict 0 [] []) 6) ∧
    (([7, 6] : List Byte) = [7] ++ 6 :: [] ∧ FaultsOnRead (small strict 0 [] []) 6 ∧
      ∀ q ∈ ([7] : List Byte), (small strict 0 [] []).isWritten q = true) := by
  refine ⟨by decide, ⟨rfl, rfl, ?_⟩, rfl, ⟨rfl, ?_⟩, ?_⟩ <;> decide

/-- Registers that may be read under the `fault` policy, and under `carryOn` with nothing written. -/
theorem witness_Readable : Readable (small strict 0 [] [(0, 1), (6, 2)]) [0, 6] ∧ Readable (small {} 0 [] []) [0, 6] := by
  refine ⟨.inr ?_, .inl rfl⟩
  decide

/-! ### ALU -/

/-- A sum of 255 fits under FAULT, one of 256 does not, and fits under WRAP. -/
theorem witness_AddWritesTheFittedSum :
    (Readable (small flt 0 [] [(0, 254), (1, 1)]) [0, 1] ∧ Fits (small flt 0 [] [(0, 254), (1, 1)]) 255) ∧
    (Readable (small flt 0 [] [(0, 255), (1, 1)]) [0, 1] ∧ ¬ Fits (small flt 0 [] [(0, 255), (1, 1)]) 256) ∧
    Fits (small {} 0 [] [(0, 255), (1, 1)]) 256 := by
  refine ⟨⟨.inl rfl, ?_⟩, ⟨.inl rfl, ?_⟩, ?_⟩ <;> unfold Fits <;> decide

/-- A difference of 0 fits under FAULT, one of -1 does not. -/
theorem witness_SubWritesTheFittedDifference :
    (Readable (small flt 0 [] [(0, 5), (1, 5)]) [0, 1] ∧ Fits (small flt 0 [] [(0, 5), (1, 5)]) (5 - 5)) ∧
    (Readable (small flt 0 [] [(0, 5), (1, 6)]) [0, 1] ∧ ¬ Fits (small flt 0 [] [(0, 5), (1, 6)]) (5 - 6)) := by
  refine ⟨⟨.inl rfl, ?_⟩, .inl rfl, ?_⟩ <;> unfold Fits <;> decide

/-- A product of 255 fits under FAULT, one of 256 does not. -/
theorem witness_MulWritesTheFittedProduct :
    (Readable (small flt 0 [] [(0, 15), (1, 17)]) [0, 1] ∧ Fits (small flt 0 [] [(0, 15), (1, 17)]) (15 * 17)) ∧
    (Readable (small flt 0 [] [(0, 16), (1, 16)]) [0, 1] ∧ ¬ Fits (small flt 0 [] [(0, 16), (1, 16)]) (16 * 16)) := by
  refine ⟨⟨.inl rfl, ?_⟩, .inl rfl, ?_⟩ <;> unfold Fits <;> decide

/-- 254 + 1 fits under FAULT; 255 is the value that faults. -/
theorem witness_IncWritesTheFittedSuccessor :
    (Readable (small flt 0 [] [(7, 254)]) [7] ∧ Fits (small flt 0 [] [(7, 254)]) (254 + 1)) ∧
    ((small flt 0 [] [(7, 255)]).cfg.overflow = .fault ∧ ((small flt 0 [] [(7, 255)]).x 7).toNat = 255) := by
  refine ⟨⟨.inl rfl, ?_⟩, rfl, ?_⟩
  · unfold Fits
    decide
  · decide

/-- 1 - 1 fits under FAULT; 0 is the value that faults. -/
theorem witness_DecWritesTheFittedPredecessor :
    (Readable (small flt 0 [] [(7, 1)]) [7] ∧ Fits (small flt 0 [] [(7, 1)]) (1 - 1)) ∧
    ((small flt 0 [] [(7, 0)]).cfg.overflow = .fault ∧ ((small flt 0 [] [(7, 0)]).x 7).toNat = 0) := by
  refine ⟨⟨.inl rfl, ?_⟩, rfl, ?_⟩
  · unfold Fits
    decide
  · decide

theorem witness_NotWritesTheComplement : (7 : Byte).toNat < 8 ∧ Readable (small {} 0 [] []) [7] :=
  ⟨by decide, .inl rfl⟩

/-- AND where AND_OPCODE is present, and where it is absent. -/
theorem witness_AndWritesTheBitwiseAnd : withAnd.Valid ∧ (small withAnd 0 [] []).cfg.andOpcode = some 0xB4 ∧
    (small {} 0 [] []).cfg.andOpcode = none ∧ (7 : Byte).toNat < 8 ∧ Readable (small withAnd 0 [] []) [7, 0] :=
  ⟨by decide, rfl, rfl, by decide, .inl rfl⟩

theorem witness_OrWritesTheBitwiseOr : (7 : Byte).toNat < 8 ∧ Readable (small {} 0 [] []) [7, 7] :=
  ⟨by decide, .inl rfl⟩

theorem witness_XorWritesTheBitwiseXor : (7 : Byte).toNat < 8 ∧ Readable (small {} 0 [] []) [7, 0] :=
  ⟨by decide, .inl rfl⟩

/-- Divisors 1 and 0. -/
theorem witness_DivWritesTheQuotient : Readable (small {} 0 [] [(0, 7), (1, 1)]) [0, 1] ∧
    ((small {} 0 [] [(0, 7), (1, 1)]).x 1).toNat ≠ 0 ∧ ((small {} 0 [] [(0, 7), (1, 0)]).x 1).toNat = 0 :=
  ⟨.inl rfl, by decide, by decide⟩

/-- Divisors 255 and 0. -/
theorem witness_ModWritesTheRemainder : Readable (small {} 0 [] [(0, 7), (1, 255)]) [0, 1] ∧
    ((small {} 0 [] [(0, 7), (1, 255)]).x 1).toNat ≠ 0 ∧ ((small {} 0 [] [(0, 7), (1, 0)]).x 1).toNat = 0 :=
  ⟨.inl rfl, by decide, by decide⟩

theorem witness_QuotientAndRemainderMakeTheDividend : ∃ t u, ((small {} 0 [] [(0, 7), (1, 2)]).x 1).toNat ≠ 0 ∧
    exec (.div 0 1) (small {} 0 [] [(0, 7), (1, 2)]) = .next t ∧ t.run ≠ .faulted ∧
    exec (.mod 0 1) (small {} 0 [] [(0, 7), (1, 2)]) = .next u ∧ u.run ≠ .faulted :=
  ⟨_, _, by decide, rfl, by decide, rfl, by decide⟩

theorem witness_CmpSetsEqualOnly : (7 : Byte).toNat < 8 ∧ Readable (small {} 0 [] []) [7, 0] :=
  ⟨by decide, .inl rfl⟩

/-! ### Load, output and control -/

theorem witness_LdiWritesTheImmediate : (7 : Byte).toNat < 8 := by decide

theorem witness_PrnEmitsTheRegister : (7 : Byte).toNat < 8 ∧ Readable (small strict 0 [] []) [7] := by
  refine ⟨by decide, .inr ?_⟩
  decide

/-- HLT in the last byte of memory. -/
theorem witness_HltHalts : (small tiny 15 [0x01] []).run = .running ∧
    (small tiny 15 [0x01] []).pc < (small tiny 15 [0x01] []).cfg.memSize ∧
    (small tiny 15 [0x01] []).byteAt (small tiny 15 [0x01] []).pc = 0x01 := by decide

/-- A zero byte in the last byte of memory. -/
theorem witness_NopOnlyAdvances : (small tiny 15 [] []).run = .running ∧
    (small tiny 15 [] []).pc < (small tiny 15 [] []).cfg.memSize ∧
    (small tiny 15 [] []).byteAt (small tiny 15 [] []).pc = 0x00 := by decide

/-! ### Stack -/

/-- SP at STACK_LIMIT; SP whose slot is the first address outside memory; SP whose slot is the last inside. -/
theorem witness_PushStoresBelowSp : Memory.wf (small {} 0 [] [(7, 0)]).mem ∧ Readable (small {} 0 [] [(7, 0)]) [7, 0] ∧
    (small {} 0 [] [(7, 0)]).sp.toNat ≤ (small {} 0 [] [(7, 0)]).cfg.stackLimit ∧
    (tiny.stackLimit < (small tiny 0 [] [(7, 17)]).sp.toNat ∧ tiny.memSize ≤ (small tiny 0 [] [(7, 17)]).sp.toNat - 1) ∧
    (tiny.stackLimit < (small tiny 0 [] [(7, 16)]).sp.toNat ∧ (small tiny 0 [] [(7, 16)]).sp.toNat - 1 < tiny.memSize) :=
  ⟨by decide, .inl rfl, by decide, by decide, by decide⟩

/-- SP at 0xF4; SP at the first address outside memory; SP at the last inside; SP at 0xF3. -/
theorem witness_PopLoadsFromSp : Readable (small {} 0 [] []) [7] ∧ 0xF4 ≤ (small {} 0 [] []).sp.toNat ∧
    ((small tiny 0 [] [(7, 16)]).sp.toNat < 0xF4 ∧ tiny.memSize ≤ (small tiny 0 [] [(7, 16)]).sp.toNat) ∧
    ((small tiny 0 [] [(7, 15)]).sp.toNat < 0xF4 ∧ (small tiny 0 [] [(7, 15)]).sp.toNat < tiny.memSize) ∧
    (small {} 0 [] [(7, 0xF3)]).sp.toNat < 0xF4 := ⟨.inl rfl, by decide, by decide, by decide, by decide⟩

/-- Return address just outside; SP at STACK_LIMIT; slot just outside; everything just inside. -/
theorem witness_CallPushesTheReturnAddress : tiny.Valid ∧ Memory.wf (small tiny 14 [] []).mem ∧
    Readable (small tiny 14 [] []) [7, 1] ∧ tiny.memSize ≤ (small tiny 14 [] []).pc + 2 ∧
    ((small tiny 13 [] [(7, 0)]).pc + 2 < tiny.memSize ∧ (small tiny 13 [] [(7, 0)]).sp.toNat ≤ tiny.stackLimit) ∧
    ((small tiny 13 [] [(7, 17)]).pc + 2 < tiny.memSize ∧ tiny.stackLimit < (small tiny 13 [] [(7, 17)]).sp.toNat ∧
      tiny.memSize ≤ (small tiny 13 [] [(7, 17)]).sp.toNat - 1) ∧
    (tiny.stackLimit < (small tiny 13 [] [(7, 16)]).sp.toNat ∧
      (small tiny 13 [] [(7, 16)]).sp.toNat - 1 < tiny.memSize) :=
  ⟨by decide, by decide, .inl rfl, by decide, by decide, by decide, by decide⟩

/-- R7 unwritten, which only a state outside every run has; SP at 0xF4; SP just outside and just inside memory. -/
theorem witness_RetJumpsToThePoppedByte :
    FaultsOnRead { State.reset with cfg := strict, written := Vector.replicate 8 false } 7 ∧
    Readable (small {} 0 [] []) [7] ∧ 0xF4 ≤ (small {} 0 [] []).sp.toNat ∧
    ((small tiny 0 [] [(7, 16)]).sp.toNat < 0xF4 ∧ tiny.memSize ≤ (small tiny 0 [] [(7, 16)]).sp.toNat) ∧
    ((small tiny 0 [] [(7, 15)]).sp.toNat < 0xF4 ∧ (small tiny 0 [] [(7, 15)]).sp.toNat < tiny.memSize) :=
  ⟨⟨rfl, by decide⟩, .inl rfl, by decide, by decide, by decide⟩

/-- SP at both ends of the stack region, 0xF4 and 1. -/
theorem witness_PushThenPopRestores : Memory.wf State.reset.mem ∧ (6 : Byte).toNat < 8 ∧ (6 : Byte) ≠ 7 ∧
    Readable (small {} 0 [] []) [7, 6] ∧
    (0 < (small {} 0 [] []).sp.toNat ∧ (small {} 0 [] []).sp.toNat ≤ 0xF4 ∧ (small {} 0 [] []).sp.toNat - 1 < 256) ∧
    (0 < (small {} 0 [] [(7, 1)]).sp.toNat ∧ (small {} 0 [] [(7, 1)]).sp.toNat ≤ 0xF4) :=
  ⟨by decide, by decide, by decide, .inl rfl, by decide, by decide⟩

theorem witness_PushThenPopOfSpLowersSp : Memory.wf State.reset.mem ∧ Readable State.reset [7] ∧
    State.reset.cfg.stackLimit < State.reset.sp.toNat ∧ State.reset.sp.toNat ≤ 0xF4 ∧
    State.reset.sp.toNat - 1 < State.reset.cfg.memSize := ⟨by decide, .inl rfl, by decide, by decide, by decide⟩

/-- `u` is the state the CALL leaves, moved to a RET elsewhere. -/
theorem witness_CallThenRetResumes : ∃ t, Config.default.Valid ∧ Memory.wf State.reset.mem ∧
    Readable State.reset [7, 1] ∧ State.reset.pc + 2 < 256 ∧ exec (.call 1) State.reset = .next t ∧
    ({ t with pc := 0x80 } : State).cfg = t.cfg ∧ ({ t with pc := 0x80 } : State).sp = t.sp ∧
    ({ t with pc := 0x80 } : State).byteAt t.sp.toNat = t.byteAt t.sp.toNat ∧
    Readable ({ t with pc := 0x80 } : State) [7] :=
  ⟨_, by decide, by decide, .inl rfl, by decide, rfl, rfl, rfl, rfl, .inl rfl⟩

/-- The pushing steps: a PUSH of R0 and of R7, and a CALL, each with the byte it pushes. -/
theorem witness_LaterFetchSeesThePush : (at16 {} [0x4D, 0] [(0, 1)]).cfg.Valid ∧
    Memory.wf (at16 {} [0x4D, 0] [(0, 1)]).mem ∧ (at16 {} [0x4D, 0] [(0, 1)]).byteAt 0x10 = 0x4D ∧
    step (at16 {} [0x4D, 0] [(0, 1)]) = .next (after (at16 {} [0x4D, 0] [(0, 1)])) ∧
    (after (at16 {} [0x4D, 0] [(0, 1)])).run = .running ∧ (1 : Byte) = (at16 {} [0x4D, 0] [(0, 1)]).x 0 ∧
    (after (at16 {} [0x4D, 7] [])).run = .running ∧ (after (at16 {} [0x4D, 7] [])).sp = 0xF3 ∧
    (after (at16 {} [0x48, 7] [])).run = .running ∧ (at16 {} [0x48, 7] []).byteAt 0x10 = 0x48 := by
  refine ⟨?_, ?_, ?_, rfl, ?_, ?_, ?_, ?_, ?_, ?_⟩ <;> decide

/-- The later states, after the PUSH of R0: pc at the pushed byte; a PRN just below it, its operand inside memory; an
LDI two below it. -/
theorem witness_LaterFetchSeesThePush_later :
    (after (at16 {} [0x4D, 0] [(0, 1)])).sp.toNat = 0xF3 ∧ dispatch {} 0x43 = some .prn ∧
    0xF2 + (0x43 : Byte).toNat / 64 < 256 ∧ dispatch {} 0x99 = some .ldi ∧ 0xF1 + (0x99 : Byte).toNat / 64 < 256 ∧
    (State.load { after (at16 {} [0x4D, 0] [(0, 1)]) with pc := 0xF2 } 0xF2 [0x43]).byteAt 0xF3 = 1 ∧
    (State.load { after (at16 {} [0x4D, 0] [(0, 1)]) with pc := 0xF1 } 0xF1 [0x99, 0]).byteAt 0xF3 = 1 := by decide

/-! ### Memory, reset and ports -/

/-- The first address outside memory, and the last inside. -/
theorem witness_MemoryPrimitivesCheckBounds : Memory.wf (small tiny 0 [0x01] []).mem ∧
    (small tiny 0 [0x01] []).cfg.memSize ≤ 16 ∧ 15 < (small tiny 0 [0x01] []).cfg.memSize := by decide

theorem witness_EqualContentsAreEqualMemories : Memory.wf [(3, 1), (9, 2)] ∧
    ∀ a, Memory.read [(3, 1), (9, 2)] a = Memory.read (Memory.write [(9, 2)] 3 1) a := ⟨by decide, fun _ => rfl⟩

theorem witness_ResetSetsTheCoreState : (6 : Byte).toNat < 7 ∧ (after (at16 {} [0x01] [])).run ≠ .running := by decide

theorem witness_NamedResetIsTheZeroDraw : (after State.reset).cfg = Config.default ∧ (after State.reset).mem = [] := by
  decide

/-- A program that ends with the last byte of memory, an empty one, and one loaded above 0. -/
theorem witness_BootLoadsTheProgram : tiny.Valid ∧ tiny.resetPc + (List.replicate 16 (0x01 : Byte)).length ≤ tiny.memSize ∧
    tiny.resetPc + ([] : List Byte).length ≤ tiny.memSize ∧ ({ resetPc := 0x40 } : Config).Valid ∧
    0x40 + ([0x99, 0, 1, 1] : List Byte).length ≤ ({ resetPc := 0x40 } : Config).memSize := by decide

/-- A step that faults, one that goes on and one that halts. -/
theorem witness_StatusPortReportsTheFault : (at16 {} [0xFF] []).run = .running ∧ (at16 {} [0xFF] []).fault = none ∧
    step (at16 {} [0xFF] []) = .next (after (at16 {} [0xFF] [])) ∧ (after (at16 {} [0xFF] [])).run = .faulted ∧
    step (at16 {} [0x00] []) = .next (after (at16 {} [0x00] [])) ∧ (after (at16 {} [0x00] [])).run = .running ∧
    step (at16 {} [0x01] []) = .next (after (at16 {} [0x01] [])) ∧ (after (at16 {} [0x01] [])).run = .halted := by
  refine ⟨?_, ?_, rfl, ?_, rfl, ?_, rfl, ?_⟩ <;> decide

theorem witness_OutputPortPulsesOncePerPrn : step (at16 {} [0x43, 7] []) = .next (after (at16 {} [0x43, 7] [])) ∧
    (at16 {} [0x43, 7] []).stepOutput = some 0xF4 := by
  refine ⟨rfl, ?_⟩
  decide

theorem witness_OutputRendersInDecimal : (0 : Byte) = 0 ∧ (255 : Byte) ≠ 0 := by decide

/-- A step with a write; one whose fetch is outside memory; one of a stopped core. -/
theorem witness_MemoryPortTellsTheStep :
    step (at16 {} [0x4D, 7] []) = .next (after (at16 {} [0x4D, 7] [])) ∧ (at16 {} [0x4D, 7] []).run = .running ∧
    (at16 {} [0x4D, 7] []).stepAccesses.length = 4 ∧
    (small tiny 16 [] []).cfg.memSize ≤ (small tiny 16 [] []).pc ∧ (after (at16 {} [0x01] [])).run ≠ .running := by
  refine ⟨rfl, ?_, ?_, ?_, ?_⟩ <;> decide

/-- A run that is finished after one step, and one that has failed. -/
theorem witness_EveryRunEndsOrHangs : (∃ t, Reaches 1 (at16 {} [0x01] []) t ∧ Finished t) ∧
    ∃ t, Reaches 1 (at16 {} [0xFF] []) t ∧ Failed t := ⟨⟨_, rfl, rfl⟩, _, rfl, rfl⟩

end Sys2Proof.Tests
end

section
/-! SUPPORT. What one step does to each piece of state, said once: how a step ends (`StepEnds`), and what
an effect does to each piece. -/

namespace Sys2Proof.Machine

/-! ## How a step ends -/

/-- The operation `o` and the operand bytes `a` and `b` are those a step of `s` fetches: each operand byte the opcode
declares is inside memory and is the byte there (40_fetch_decode_execute.md R102-R104). -/
structure FetchesAs (s : State) (o : Operation) (a b : Byte) : Prop where
  inside : s.pc < s.cfg.memSize
  opcode : dispatch s.cfg (s.byteAt s.pc) = some o
  operandA : 1 ≤ opcount (s.byteAt s.pc) → s.pc + 1 < s.cfg.memSize ∧ a = s.byteAt (s.pc + 1)
  operandB : 2 ≤ opcount (s.byteAt s.pc) → s.pc + 2 < s.cfg.memSize ∧ b = s.byteAt (s.pc + 2)

/-- The three ways a step ends: nothing done, a fault taken (at most IR latched before it), or an instruction's
effect. -/
inductive StepEnds (s : State) : State → Prop where
  | stopped (hr : s.run ≠ .running) : StepEnds s s
  | faults (hr : s.run = .running) (ir : Byte) (c : FaultCause) : StepEnds s ((s.latchIR ir).takeFault c)
  | completes {t : State} (hr : s.run = .running) (o : Operation) (a b : Byte) (hf : FetchesAs s o a b)
      (he : Effect (s.latchIR (s.byteAt s.pc)) (o.instr a b) t) : StepEnds s t

theorem stepEnds_of_step {s t : State} (hs : step s = .next t) : StepEnds s t := by
  rcases step_inv hs with ⟨hr, rfl⟩ | ⟨hr, -, rfl⟩ | ⟨hr, -, c, rfl, -⟩ |
    ⟨hr, hpc, o, a, b, ho, hA, hB, -, ⟨c, -, rfl⟩ | ⟨he, -⟩⟩
  · exact .stopped hr
  · exact .faults hr s.ir _
  · exact .faults hr _ c
  · exact .faults hr _ c
  · exact .completes hr o a b ⟨hpc, ho, hA, hB⟩ he

/-- With parameters in their domains, the bytes of a fetched instruction all lie inside memory
(40_fetch_decode_execute.md R104, R107). -/
theorem FetchesAs.advance_le {s : State} {o : Operation} {a b : Byte} (h : FetchesAs s o a b) (v : s.cfg.Valid) :
    s.pc + (o.instr a b).operands.length + 1 ≤ s.cfg.memSize := by
  obtain ⟨hpc, ho, hA, hB⟩ := h
  rw [Operation.length_operands_instr, ← opcount_of_dispatch v ho]
  have le2 : opcount (s.byteAt s.pc) ≤ 2 := opcount_of_dispatch v ho ▸ o.count_le_two
  rcases Nat.lt_or_ge (opcount (s.byteAt s.pc)) 1 with h0 | h1
  · omega
  rcases Nat.lt_or_ge (opcount (s.byteAt s.pc)) 2 with h1' | h2
  · have := (hA h1).1
    omega
  · have := (hB h2).1
    omega

/-- A completed instruction leaves pc at most at MEM_SIZE, or at a byte value (40_fetch_decode_execute.md R107;
10_state.md R29). -/
theorem FetchesAs.pcBound {s t : State} {o : Operation} {a b : Byte} (h : FetchesAs s o a b) (v : s.cfg.Valid)
    (he : Effect (s.latchIR (s.byteAt s.pc)) (o.instr a b) t) : t.pc ≤ s.cfg.memSize ∨ t.pc < 256 := by
  obtain ⟨sequential, jump⟩ := effect_pc he
  by_cases hj : (o.instr a b).operation = .call ∨ (o.instr a b).operation = .ret
  · exact .inr (jump hj)
  · rw [not_or] at hj
    exact .inl ((sequential hj.1 hj.2).trans_le (h.advance_le v))

/-! ## Opcode bytes and operations -/

/-- The opcode of a row's operation is the row's. -/
theorem opcode_mem_of_operation_mem {c : Config} {op : Byte} {o : Operation} (e : dispatch c op = some o)
    {ops : List Byte} {os : List Operation}
    (h : os.map (fun o => (opcodeTable.find? (fun row => row.2 == o)).map Prod.fst) = ops.map some) (ho : o ∈ os) :
    op ∈ ops := by
  have hmem : (opcodeTable.find? (fun row => row.2 == o)).map Prod.fst ∈ ops.map some :=
    h ▸ List.mem_map_of_mem (f := fun o => (opcodeTable.find? (fun row => row.2 == o)).map Prod.fst) ho
  obtain ⟨k, hk, ek⟩ := List.mem_map.1 hmem
  exact opcode_of_dispatch e ek.symm ▸ hk

/-- The operation at a row's opcode is the row's. -/
theorem operation_mem_of_opcode_mem {c : Config} {op : Byte} {o : Operation} (e : dispatch c op = some o)
    {ops : List Byte} {os : List Operation} (h : ops.map (opcodeTable.lookup ·) = os.map some) (hop : op ∈ ops) :
    o ∈ os := by
  have hmem : opcodeTable.lookup op ∈ os.map some := h ▸ List.mem_map_of_mem (f := (opcodeTable.lookup ·)) hop
  obtain ⟨o', ho', e'⟩ := List.mem_map.1 hmem
  have : some o' = some o := (dispatch_of_lookup e'.symm).symm.trans e
  exact Option.some.inj this ▸ ho'

/-- An instruction's first register operand is its first operand byte. -/
theorem eq_of_head_regOperands {o : Operation} {a b r : Byte}
    (h : (regOperands (o.instr a b)).head? = some r) : r = a ∧ 1 ≤ o.count := by
  cases o <;> simp [Operation.instr, Operation.count, Instr.operands, regOperands] at h ⊢ <;> exact h.symm

/-! ## The effects, per piece of state -/

/-- Only HLT's effect writes the run state (10_state.md R36). -/
theorem effect_run_cases {s t : State} {i : Instr} (h : Effect s i t) :
    (i = .hlt ∧ t.run = .halted) ∨ (i ≠ .hlt ∧ t.run = s.run) := by
  cases h with
  | halt => exact .inl ⟨rfl, rfl⟩
  | reg i a v ha hi => exact .inr ⟨fun e => by simp [e, Instr.operation] at hi, rfl⟩
  | _ => exact .inr ⟨by simp, rfl⟩

/-- Only CMP's effect writes FL, and only FL.E (10_state.md R33). -/
theorem effect_fl_cases {s t : State} {i : Instr} (h : Effect s i t) :
    t.fl = s.fl ∨ (i.operation = .cmp ∧ t.run = s.run ∧ ∃ e, t.fl = { s.fl with e := e }) := by
  cases h with
  | flag a b => exact .inr ⟨rfl, rfl, _, rfl⟩
  | _ => exact .inl rfl

/-- Only PRN's effect writes the output, by one value (10_state.md R38). -/
theorem effect_out_cases {s t : State} {i : Instr} (h : Effect s i t) :
    (∃ a, i = .prn a ∧ t.out = s.out ++ [s.x a]) ∨ (i.operation ≠ .prn ∧ t.out = s.out) := by
  cases h with
  | out a => exact .inl ⟨a, rfl, rfl⟩
  | reg i a v ha hi => exact .inr ⟨fun e => by simp [e] at hi, rfl⟩
  | _ => exact .inr ⟨by simp [Instr.operation], rfl⟩

/-- A register an effect changes is the first register operand, or R7 of a stack instruction (10_state.md R25). -/
theorem effect_x_cases {s t : State} {i : Instr} (h : Effect s i t) {r : Byte} (hr : t.x r ≠ s.x r) :
    ((regOperands i).head? = some r ∧ i.operation ∉ [.nop, .hlt, .ret, .prn, .call, .push, .cmp]) ∨
    (r = 7 ∧ i.operation ∈ [.ret, .call, .pop, .push]) := by
  have written : ∀ (u : State) (a v : Byte), (u.setX a v).x r ≠ u.x r → r = a := fun u a v h =>
    Classical.byContradiction fun e => h (x_setX_ne u (Ne.symm e) v)
  cases h with
  | reg i a v ha hi =>
    obtain rfl := written s a v hr
    simp only [List.mem_cons, List.not_mem_nil, not_or] at hi ⊢
    tauto
  | push a => exact .inr ⟨written s 7 _ hr, by simp [Instr.operation]⟩
  | call a => exact .inr ⟨written s 7 _ hr, by simp [Instr.operation]⟩
  | ret => exact .inr ⟨written s 7 _ hr, by simp [Instr.operation]⟩
  | pop a =>
    by_cases hp : (s.setX 7 (s.sp + 1)).x r = s.x r
    · obtain rfl := written _ a _ (by rw [hp]; exact hr)
      exact .inl ⟨rfl, by simp [Instr.operation]⟩
    · exact .inr ⟨written s 7 _ hp, by simp [Instr.operation]⟩
  | _ => exact absurd rfl hr

/-- A step of a running core with an empty record either fills it with the faulting pc and enters FAULTED, or leaves it
empty and enters no fault (10_state.md R37; 60_exceptions.md R212). -/
theorem step_record_cases {s t : State} (hr : s.run = .running) (h0 : s.fault = none) (hs : step s = .next t) :
    (t.run = .faulted ∧ ∃ c, t.fault = some ⟨c, s.pc⟩) ∨ (t.run ≠ .faulted ∧ t.fault = none) := by
  cases stepEnds_of_step hs with
  | stopped h => exact absurd hr h
  | faults _ ir c => exact .inl ⟨rfl, c, rfl⟩
  | completes _ _ _ _ hf he => exact .inr ⟨effect_run he hr, (effect_fault he).trans h0⟩

/-- HLT has no operand, reads no register and reaches no memory: it never faults (42_handlers.md R172). -/
theorem not_raises_hlt {s : State} (c : FaultCause) : ¬ Raises s .hlt c := by
  intro h
  cases h with
  | index _ _ _ _ hb => simp [regOperands] at hb
  | unwritten _ _ _ _ _ hr => simp [readRegs] at hr
  | divisor _ _ _ hi => simp at hi
  | overflow _ _ hi => cases hi
  | pushLimit _ hi => simp [Instr.operation] at hi
  | pushAddress _ hi => simp [Instr.operation] at hi
  | popLimit _ hi => simp [Instr.operation] at hi
  | popAddress _ hi => simp [Instr.operation] at hi

/-- A step at an HLT byte halts (42_handlers.md R172). -/
theorem step_run_of_hlt {s t : State} (hr : s.run = .running) (hpc : s.pc < s.cfg.memSize)
    (hop : s.byteAt s.pc = 0x01) (hs : step s = .next t) : t.run = .halted := by
  have hd : dispatch s.cfg (s.byteAt s.pc) = some .hlt := hop ▸ dispatch_of_lookup rfl
  have hn : opcount (s.byteAt s.pc) = 0 := hop ▸ rfl
  rcases step_inv hs with ⟨h, -⟩ | ⟨-, h, -⟩ | ⟨-, -, c, -, ⟨h, -⟩ | ⟨-, ⟨h, -⟩ | ⟨h, -⟩⟩⟩ |
    ⟨-, -, o, a, b, ho, -, -, -, h⟩
  · exact absurd hr h
  · omega
  · rw [hd] at h
    cases h
  · omega
  · omega
  · obtain rfl : Operation.hlt = o := Option.some.inj (hd.symm.trans ho)
    rcases h with ⟨c, hc, -⟩ | ⟨he, -⟩
    · exact absurd hc (not_raises_hlt c)
    · cases he with
      | halt => rfl
      | reg _ _ _ ha => cases ha

/-! ## FL's 8-bit view -/

theorem Flags.toByte_low_bits (f : Flags) :
    f.toByte.getLsbD 0 = f.e ∧ f.toByte.getLsbD 1 = f.g ∧ f.toByte.getLsbD 2 = f.l := by
  obtain ⟨e, g, l⟩ := f
  cases e <;> cases g <;> cases l <;> decide

theorem Flags.toByte_lt (f : Flags) : f.toByte.toNat < 2 ^ 3 := by
  obtain ⟨e, g, l⟩ := f
  cases e <;> cases g <;> cases l <;> decide

/-- Bits 7:1 of FL's view depend on G and L alone (10_state.md R32). -/
theorem Flags.toByte_shiftRight_one (f : Flags) : f.toByte >>> 1 = BitVec.ofNat 8 (f.g.toNat + 2 * f.l.toNat) := by
  obtain ⟨e, g, l⟩ := f
  cases e <;> cases g <;> cases l <;> decide

/-! ## The status port -/

theorem statusPort_of_no_fault {t : State} (h : t.fault = none) : t.statusPort = ⟨t.run.code, 0, none, none⟩ := by
  simp [State.statusPort, h]

theorem statusPort_of_fault {t : State} {c : FaultCause} {p : Nat} (hr : t.run = .faulted) (h : t.fault = some ⟨c, p⟩) :
    t.statusPort = ⟨2, c.code, some c.info, some p⟩ := by
  simp [State.statusPort, h, hr, RunState.code]

/-! ## What a step hands to EXECUTE -/

/-- A step hands no instruction to EXECUTE and leaves memory and the output, or is the instruction it hands over. -/
theorem nextInstr_cases (s : State) :
    (s.nextInstr = none ∧ ∃ t, step s = .next t ∧ t.mem = s.mem ∧ t.out = s.out) ∨
    ∃ i, s.nextInstr = some (i, s.latchIR (s.byteAt s.pc)) ∧ s.run = .running ∧ s.pc < s.cfg.memSize ∧
      dispatch s.cfg (s.byteAt s.pc) ≠ none ∧ step s = exec i (s.latchIR (s.byteAt s.pc)) := by
  rcases step_cases s with ⟨h, w⟩ | ⟨hr, ⟨h, w⟩ | ⟨h', ⟨c, e, w⟩ | ⟨i, e, w⟩⟩⟩
  · exact .inl ⟨by simp [State.nextInstr, h], _, w, rfl, rfl⟩
  · exact .inl ⟨by simp [State.nextInstr, hr, fetchOpcode_error h], _, w, rfl, rfl⟩
  · exact .inl ⟨by simp [State.nextInstr, hr, fetchOpcode_ok h', e], _, w, rfl, rfl⟩
  · refine .inr ⟨i, by simp [State.nextInstr, hr, fetchOpcode_ok h', e], hr, h', fun hd => ?_, w⟩
    rcases decodeFetched_cases (s.latchIR (s.byteAt s.pc)) (s.byteAt s.pc) with ⟨-, f⟩ | ⟨o, d, -⟩
    · rw [f] at e
      cases e
    · rw [latchIR_cfg, hd] at d
      cases d

/-- In a running core, `completed` tells the instructions that fault from those that have their effect. -/
theorem completed_cases (i : Instr) {s : State} (hr : s.run = .running) :
    (∃ c, exec i s = .next (s.takeFault c) ∧ completed i s = none) ∨
    ∃ t, Effect s i t ∧ exec i s = .next t ∧ completed i s = some t := by
  rcases exec_cases i s with ⟨c, -, e⟩ | ⟨t, he, -, e⟩
  · exact .inl ⟨c, e, by simp [completed, e]⟩
  · exact .inr ⟨t, he, e, by simp [completed, e, effect_run he hr]⟩

/-! ## The output port -/

theorem stepOutput_of_nextInstr_none {s : State} (h : s.nextInstr = none) : s.stepOutput = none := by
  simp [State.stepOutput, h]

theorem stepOutput_of_nextInstr_prn {s s1 : State} {a : Byte} (h : s.nextInstr = some (.prn a, s1)) :
    s.stepOutput = (completed (.prn a) s1).map fun _ => s1.x a := by
  simp [State.stepOutput, h]

theorem stepOutput_of_nextInstr_ne_prn {s s1 : State} {i : Instr} (h : s.nextInstr = some (i, s1))
    (hi : i.operation ≠ .prn) : s.stepOutput = none := by
  unfold State.stepOutput
  rw [h]
  split
  · rename_i e
    cases e
    exact absurd rfl hi
  · rfl

theorem stepOutput_of_completed_none {s s1 : State} {i : Instr} (h : s.nextInstr = some (i, s1))
    (hc : completed i s1 = none) : s.stepOutput = none := by
  by_cases hi : i.operation = .prn
  · cases i <;> cases hi
    rw [stepOutput_of_nextInstr_prn h, hc, Option.map_none]
  · exact stepOutput_of_nextInstr_ne_prn h hi

/-! ## The memory port -/

/-- The address an access reaches. -/
def MemAccess.addr : MemAccess → Nat
  | .read a => a
  | .write a _ => a

/-- The access is a read inside a memory of `n` bytes. -/
def MemAccess.ReadInside (n : Nat) (acc : MemAccess) : Prop := ∃ a < n, acc = .read a

theorem MemAccess.ReadInside.addr_lt {n : Nat} {acc : MemAccess} (h : acc.ReadInside n) : acc.addr < n := by
  obtain ⟨a, ha, rfl⟩ := h
  exact ha

/-- Reads leave memory (20_memory.md R56). -/
theorem foldl_apply_of_reads {n : Nat} {l : List MemAccess} (h : ∀ acc ∈ l, acc.ReadInside n) (m : Memory) :
    l.foldl Memory.apply m = m := by
  induction l with
  | nil => rfl
  | cons acc l ih =>
    obtain ⟨a, -, rfl⟩ := h acc (by simp)
    exact ih fun acc hacc => h acc (by simp [hacc])

/-- Operand fetch reads, and inside memory only (40_fetch_decode_execute.md R104). -/
theorem readInside_of_mem_operandAccesses {s : State} {acc : MemAccess} (h : acc ∈ s.operandAccesses) :
    acc.ReadInside s.cfg.memSize := by
  obtain ⟨a, -, e⟩ := List.mem_filterMap.1 h
  by_cases ha : a < s.cfg.memSize
  · rw [if_pos ha] at e
    exact ⟨a, ha, (Option.some.inj e).symm⟩
  · rw [if_neg ha] at e
    cases e

theorem stepAccesses_of_idle {s : State} (h : s.run ≠ .running ∨ s.cfg.memSize ≤ s.pc) : s.stepAccesses = [] := by
  by_cases hr : s.run = .running
  · have hpc : s.cfg.memSize ≤ s.pc := h.resolve_left (absurd hr)
    simp [State.stepAccesses, hr, fetchOpcode_error hpc]
  · simp [State.stepAccesses, hr]

/-- The first access fetches the opcode (40_fetch_decode_execute.md R102). -/
theorem head_stepAccesses {s : State} (hr : s.run = .running) (hpc : s.pc < s.cfg.memSize) :
    s.stepAccesses.head? = some (.read s.pc) := by
  simp only [State.stepAccesses, hr, fetchOpcode_ok hpc, if_true]
  split <;> rfl

/-- A step that hands over no instruction has made the reads of FETCH and OPERAND only. -/
theorem readInside_of_nextInstr_none {s : State} (h : s.nextInstr = none) {acc : MemAccess}
    (hacc : acc ∈ s.stepAccesses) : acc.ReadInside s.cfg.memSize := by
  by_cases hi : s.run ≠ .running ∨ s.cfg.memSize ≤ s.pc
  · simp [stepAccesses_of_idle hi] at hacc
  obtain ⟨hr, hpc⟩ : s.run = .running ∧ s.pc < s.cfg.memSize := by
    rw [not_or, not_not, Nat.not_le] at hi
    exact hi
  simp only [State.stepAccesses, hr, fetchOpcode_ok hpc, h, if_true, List.append_nil] at hacc
  split at hacc
  · exact ⟨s.pc, hpc, List.mem_singleton.1 hacc⟩
  · rcases List.mem_cons.1 hacc with e | hacc
    · exact ⟨s.pc, hpc, e⟩
    · exact readInside_of_mem_operandAccesses hacc

/-- A step that hands over an instruction makes FETCH's read, OPERAND's, then the instruction's accesses. -/
theorem stepAccesses_of_nextInstr {s s1 : State} {i : Instr} (h : s.nextInstr = some (i, s1)) (hr : s.run = .running)
    (hpc : s.pc < s.cfg.memSize) (hd : dispatch s.cfg (s.byteAt s.pc) ≠ none) :
    s.stepAccesses = .read s.pc :: (s.operandAccesses ++ execAccesses i s1) := by
  simp [State.stepAccesses, hr, fetchOpcode_ok hpc, h, hd]

theorem execAccesses_of_completed_none {s : State} {i : Instr} (h : completed i s = none) : execAccesses i s = [] := by
  simp [execAccesses, h]

/-- No instruction but the stack's reaches memory (20_memory.md R53). -/
theorem execAccesses_of_no_stack {s : State} {i : Instr} (hi : i.operation ∉ [.push, .pop, .call, .ret]) :
    execAccesses i s = [] := by
  unfold execAccesses
  cases i with
  | push | pop | call | ret => simp [Instr.operation] at hi
  | _ => split <;> rfl

/-- The accesses are inside memory and, applied in order, make the memory of `t` from that of `s`. -/
def AccessesTell (accs : List MemAccess) (s t : State) : Prop :=
  (∀ acc ∈ accs, acc.addr < s.cfg.memSize) ∧ t.mem = accs.foldl Memory.apply s.mem

theorem accessesTell_nil {s t : State} (h : t.mem = s.mem) : AccessesTell [] s t := ⟨by simp, h⟩

theorem accessesTell_singleton {s t : State} {acc : MemAccess} (hl : acc.addr < s.cfg.memSize)
    (hm : t.mem = Memory.apply s.mem acc) : AccessesTell [acc] s t := ⟨by simpa using hl, hm⟩

/-- Reads inside memory may come before. -/
theorem AccessesTell.of_reads_append {reads accs : List MemAccess} {s t : State}
    (hr : ∀ acc ∈ reads, acc.ReadInside s.cfg.memSize) (h : AccessesTell accs s t) :
    AccessesTell (reads ++ accs) s t := by
  obtain ⟨hl, hm⟩ := h
  refine ⟨fun acc hacc => ?_, ?_⟩
  · rcases List.mem_append.1 hacc with hacc | hacc
    · exact (hr acc hacc).addr_lt
    · exact hl acc hacc
  · rw [List.foldl_append, foldl_apply_of_reads hr, hm]

/-- A completed instruction's accesses are inside memory and tell all it does to memory (20_memory.md R51, R53). -/
theorem execAccesses_tell {s t : State} {i : Instr} (h : completed i s = some t) (he : Effect s i t) :
    AccessesTell (execAccesses i s) s t := by
  have no_stack (hi : i.operation ∉ [.push, .pop, .call, .ret]) (hm : t.mem = s.mem) :
      AccessesTell (execAccesses i s) s t := execAccesses_of_no_stack hi ▸ accessesTell_nil hm
  cases he with
  | push a h1 h2 =>
    simp only [execAccesses, h]
    exact accessesTell_singleton h2 rfl
  | call a h0 h1 h2 =>
    simp only [execAccesses, h]
    exact accessesTell_singleton h2 rfl
  | pop a h1 h2 =>
    simp only [execAccesses, h]
    exact accessesTell_singleton h2 rfl
  | ret h1 h2 =>
    simp only [execAccesses, h]
    exact accessesTell_singleton h2 rfl
  | reg i a v ha hi =>
    refine no_stack ?_ rfl
    simp only [List.mem_cons, List.not_mem_nil, not_or] at hi ⊢
    tauto
  | _ => exact no_stack (by simp [Instr.operation]) rfl

/-- The memory port of a step: its accesses are inside memory and tell all the step does to memory. -/
theorem stepAccesses_tell {s t : State} (hs : step s = .next t) : AccessesTell s.stepAccesses s t := by
  rcases nextInstr_cases s with ⟨hn, u, w, hm, -⟩ | ⟨i, hn, hr, hpc, hd, w⟩ <;> rw [hs] at w
  · injection w with w
    subst w
    rw [← List.append_nil s.stepAccesses]
    exact (accessesTell_nil hm).of_reads_append fun acc => readInside_of_nextInstr_none hn
  have own : AccessesTell (execAccesses i (s.latchIR (s.byteAt s.pc))) s t := by
    rcases completed_cases i (s := s.latchIR (s.byteAt s.pc)) hr with ⟨c, e, hc⟩ | ⟨u, he, e, hc⟩ <;>
      rw [e] at w <;> injection w with w <;> subst w
    · exact execAccesses_of_completed_none hc ▸ accessesTell_nil rfl
    · exact execAccesses_tell hc he
  rw [stepAccesses_of_nextInstr hn hr hpc hd]
  refine own.of_reads_append (reads := .read s.pc :: s.operandAccesses) fun acc hacc => ?_
  rcases List.mem_cons.1 hacc with rfl | hacc
  · exact ⟨s.pc, hpc, rfl⟩
  · exact readInside_of_mem_operandAccesses hacc

/-! ## Reset -/

/-- The reset of a core with the default parameters and freshly built memory, at the zero draw, is the named reset
state. -/
theorem coreReset_zero {s : State} (hc : s.cfg = Config.default) (hm : s.mem = []) :
    s.coreReset ResetDraw.zero = State.reset := by
  obtain ⟨regs, written, pc, ir, fl, run, fault, out, mem, cfg⟩ := s
  cases hc
  cases hm
  rfl

/-- Reset meets the invariant with every draw (10_state.md R47). -/
theorem inv_coreReset (d : ResetDraw) {s : State} (v : s.cfg.Valid) (hw : Memory.wf s.mem)
    (hin : Memory.within s.cfg.memSize s.mem) : Inv (s.coreReset d) where
  valid := v
  memWf := hw
  memWithin := hin
  pcBound := .inl (Nat.le_of_lt v.2.1)
  record := by simp [State.coreReset]
  spWritten := rfl

theorem recordTruthful_of_no_fault {s : State} (h : s.fault = none) : RecordTruthful s :=
  ⟨fun _ => h, fun r hr => by rw [h] at hr; cases hr⟩

end Sys2Proof.Machine
end

section
/-! PROOFS. The statements about the state: what reset gives, what every step keeps, and what the ports show. -/

namespace Sys2Proof.Machine

/-- Settles O16: a fault changes only the run state and the record, and each effect keeps every part of the
invariant. -/
theorem stepKeepsTheInvariant : Obligations.StepKeepsTheInvariant := by
  intro s t hi hs
  obtain ⟨v, hw, hin, hpc, hrec, h7⟩ := hi
  cases stepEnds_of_step hs with
  | stopped => exact ⟨v, hw, hin, hpc, hrec, h7⟩
  | faults _ ir c => exact ⟨v, hw, hin, hpc, by simp, h7⟩
  | completes hr o a b hf he =>
    obtain ⟨hw', hin', h7'⟩ := effect_keeps (s := s.latchIR (s.byteAt s.pc)) hw hin h7 he
    have hcfg : t.cfg = s.cfg := effect_cfg (s := s.latchIR (s.byteAt s.pc)) he
    have no_fault : t.fault = none := (effect_fault he).trans (by simpa [hr] using hrec)
    exact ⟨hcfg ▸ v, hw', hin', hcfg ▸ hf.pcBound v he, by simp [no_fault, effect_run he hr], h7'⟩

/-- Settles O19: the one effect that writes FL is CMP's, and it writes E alone. -/
theorem onlyCmpWritesFlags : Obligations.OnlyCmpWritesFlags := by
  intro s t hs
  have kept : t.fl = s.fl → (t.fl ≠ s.fl → s.run = .running ∧ t.run = .running ∧ s.byteAt s.pc = 0xA0) ∧
      t.fl.g = s.fl.g ∧ t.fl.l = s.fl.l ∧ t.fl.toByte >>> 1 = s.fl.toByte >>> 1 := fun h => by simp [h]
  cases stepEnds_of_step hs with
  | stopped => exact kept rfl
  | faults => exact kept rfl
  | completes hr o a b hf he =>
    rcases effect_fl_cases he with h | ⟨ho, hrun, e, h⟩
    · exact kept h
    · obtain rfl := (Operation.operation_instr _ _ _).symm.trans ho
      refine ⟨fun _ => ⟨hr, hrun.trans hr, opcode_of_dispatch hf.opcode rfl⟩, ?_⟩
      rw [Flags.toByte_shiftRight_one, Flags.toByte_shiftRight_one, h]
      exact ⟨rfl, rfl, rfl⟩

/-- Settles O20: the one effect that writes the output is PRN's. -/
theorem onlyPrnAppendsToOutput : Obligations.OnlyPrnAppendsToOutput := by
  refine ⟨fun _ _ => rfl, fun s t hs => ?_⟩
  cases stepEnds_of_step hs with
  | stopped => exact .inl rfl
  | faults => exact .inl rfl
  | completes hr o a b hf he =>
    rcases effect_out_cases he with ⟨a', hi, h⟩ | ⟨-, h⟩
    · obtain rfl : o = .prn := by rw [← o.operation_instr a b, hi]; rfl
      obtain rfl : a = a' := Instr.prn.inj hi
      have hop : s.byteAt s.pc = 0x43 := opcode_of_dispatch hf.opcode rfl
      have ha : a = s.byteAt (s.pc + 1) := (hf.operandA (by rw [hop]; decide)).2
      exact .inr ⟨hr, hop, ha ▸ h⟩
    · exact .inl h

/-- Settles O22: the first register operand is operand A, and the table gives each excluded opcode's operation. -/
theorem registerWritesFollowTheTable : Obligations.RegisterWritesFollowTheTable := by
  intro s t v hs r hx
  cases stepEnds_of_step hs with
  | stopped => exact absurd rfl hx
  | faults => exact absurd rfl hx
  | completes hr o a b hf he =>
    refine ⟨hr, ?_⟩
    rcases effect_x_cases he hx with ⟨hhead, ho⟩ | ⟨h7, ho⟩ <;> rw [Operation.operation_instr] at ho
    · obtain ⟨rfl, hcount⟩ := eq_of_head_regOperands hhead
      rw [← opcount_of_dispatch v hf.opcode] at hcount
      exact .inl ⟨(hf.operandA hcount).2, fun hop => ho (operation_mem_of_opcode_mem hf.opcode rfl hop)⟩
    · exact .inr ⟨h7, opcode_mem_of_operation_mem hf.opcode rfl ho⟩

/-- Settles O23: the one effect that halts is HLT's, and a step enters FAULTED exactly as it fills the record. -/
theorem onlyHltAndFaultsEndTheRun : Obligations.OnlyHltAndFaultsEndTheRun := by
  intro s t hr h0 hs
  refine ⟨⟨fun hh => ?_, fun ⟨hpc, hop⟩ => step_run_of_hlt hr hpc hop hs⟩, ?_⟩
  · cases stepEnds_of_step hs with
    | stopped h => exact absurd hr h
    | faults => cases hh
    | completes _ o a b hf he =>
      rcases effect_run_cases he with ⟨hi, -⟩ | ⟨-, hrun⟩
      · obtain rfl : o = .hlt := by rw [← o.operation_instr a b, hi]; rfl
        exact ⟨hf.inside, opcode_of_dispatch hf.opcode rfl⟩
      · rw [hh, latchIR_run, hr] at hrun
        cases hrun
  · rcases step_record_cases hr h0 hs with ⟨hrun, c, hc⟩ | ⟨hrun, hc⟩ <;> simp [hrun, hc]

/-- Settles O24: no effect, fault, reset or store writes the parameters. -/
theorem parametersNeverChange : Obligations.ParametersNeverChange := by
  refine ⟨fun s t hs => ?_, fun _ _ => rfl, fun vs s a => load_cfg vs s a⟩
  cases stepEnds_of_step hs with
  | stopped => rfl
  | faults => rfl
  | completes _ _ _ _ _ he => exact effect_cfg (s := s.latchIR (s.byteAt s.pc)) he

/-- Settles O56: the port shows the record, kind by kind. -/
theorem statusPortReportsTheFault : Obligations.StatusPortReportsTheFault := by
  intro s t hr h0 hs
  rcases step_record_cases hr h0 hs with ⟨hrun, c, hc⟩ | ⟨hrun, hc⟩
  · refine ⟨fun h => ?_, fun h => ?_, fun _ => ⟨c, hc, ?_⟩⟩
    · rw [hrun] at h
      cases h
    · rw [hrun] at h
      cases h
    · have port := statusPort_of_fault hrun hc
      cases c <;> exact port
  · have port := statusPort_of_no_fault hc
    refine ⟨fun h => ?_, fun h => ?_, fun h => absurd h hrun⟩
    · rw [port, h]
      rfl
    · rw [port, h]
      rfl

/-- Settles O57: a completed PRN appends the value the port shows, and nothing else appends or pulses. -/
theorem outputPortPulsesOncePerPrn : Obligations.OutputPortPulsesOncePerPrn := by
  intro s t hs
  rcases nextInstr_cases s with ⟨hn, u, w, -, ho⟩ | ⟨i, hn, hr, -, -, w⟩ <;> rw [hs] at w
  · injection w with w
    subst w
    simp [stepOutput_of_nextInstr_none hn, ho]
  rcases completed_cases i (s := s.latchIR (s.byteAt s.pc)) hr with ⟨c, e, hc⟩ | ⟨u, he, e, hc⟩ <;>
    rw [e] at w <;> injection w with w <;> subst w
  · simp [stepOutput_of_completed_none hn hc]
  · rcases effect_out_cases he with ⟨a, rfl, ho⟩ | ⟨hi, ho⟩
    · simp [stepOutput_of_nextInstr_prn hn, hc, ho]
    · simp [stepOutput_of_nextInstr_ne_prn hn hi, ho]

/-- Settles O59, from the step's accesses in order and what each leaves of memory. -/
theorem memoryPortTellsTheStep : Obligations.MemoryPortTellsTheStep := by
  intro s t hs
  obtain ⟨bounds, hmem⟩ := stepAccesses_tell hs
  refine ⟨fun acc hacc => ?_, head_stepAccesses, stepAccesses_of_idle, hmem⟩
  have := bounds acc hacc
  cases acc <;> exact this

/-- Settles O53: boot with no program is the reset of freshly built memory. -/
theorem namedResetIsTheZeroDraw : Obligations.NamedResetIsTheZeroDraw :=
  ⟨(coreReset_zero (s := State.build Config.default) rfl rfl).symm, fun _ => coreReset_zero⟩

/-- Settles O17: the named reset is a reset of itself. -/
theorem resetMeetsTheInvariant : Obligations.ResetMeetsTheInvariant := by
  have named : State.reset.coreReset ResetDraw.zero = State.reset := coreReset_zero rfl rfl
  refine ⟨?_, recordTruthful_of_no_fault rfl, fun d s v hw hin =>
    ⟨inv_coreReset d v hw hin, recordTruthful_of_no_fault rfl⟩⟩
  rw [← named]
  exact inv_coreReset _ (by decide) (by decide) (by decide)

/-- Settles O55: E, G and L are the three bits of a value below 8. -/
theorem flagsByteLayout : Obligations.FlagsByteLayout := by
  intro f
  obtain ⟨h0, h1, h2⟩ := f.toByte_low_bits
  refine ⟨h0, h1, h2, fun k h3 _ => ?_⟩
  rw [← BitVec.testBit_toNat]
  exact Nat.testBit_lt_two_pow (Nat.lt_of_lt_of_le f.toByte_lt (Nat.pow_le_pow_right (by decide) h3))

end Sys2Proof.Machine
end

section
/-! SUPPORT. Memory: a canonical memory is its contents, which effects write it and where, what a push leaves at the new
SP, and what a step makes of the bytes at pc. -/

namespace Sys2Proof.Machine

/-! ## The canonical form -/

/-- A byte other than 0 is read from an entry. -/
theorem Memory.mem_of_read_ne_zero {m : Memory} {a : Nat} (h : Memory.read m a ≠ 0) : (a, Memory.read m a) ∈ m := by
  induction m with
  | nil => exact absurd rfl h
  | cons q m ih =>
    obtain ⟨b, w⟩ := q
    rw [Memory.read] at h ⊢
    split
    next hab => simp [hab]
    next hab =>
      rw [if_neg hab] at h
      exact List.mem_cons_of_mem _ (ih h)

/-- The entries of a canonical memory are the addresses that do not read as 0. -/
theorem Memory.mem_iff_read {m : Memory} (h : Memory.wf m) (p : Host.Cell) :
    p ∈ m ↔ Memory.read m p.1 = p.2 ∧ p.2 ≠ 0 := by
  refine ⟨fun hp => ⟨Memory.read_of_mem h hp, h.2 p hp⟩, fun ⟨hr, hv⟩ => ?_⟩
  have hmem := Memory.mem_of_read_ne_zero (hr ▸ hv)
  rwa [hr] at hmem

/-! ## MemRead and MemWrite, on both sides of the bound (20_memory.md R51) -/

theorem memRead_of_lt {s : State} {a : Nat} (h : a < s.cfg.memSize) : s.memRead a = .ok (s.byteAt a) :=
  if_neg (Nat.not_le.2 h)

theorem memRead_of_le {s : State} {a : Nat} (h : s.cfg.memSize ≤ a) : s.memRead a = .error (.addressOutOfBounds a) :=
  if_pos h

theorem memWrite_of_lt {s : State} {a : Nat} (v : Byte) (h : a < s.cfg.memSize) :
    s.memWrite a v = .ok (s.setByte a v) := if_neg (Nat.not_le.2 h)

theorem memWrite_of_le {s : State} {a : Nat} (v : Byte) (h : s.cfg.memSize ≤ a) :
    s.memWrite a v = .error (.addressOutOfBounds a) := if_pos h

/-! ## The push -/

/-- A register at a push's store: SP has its new value there (43_stack_and_calls.md R180, R182). -/
theorem x_setX_sp (s : State) (v a : Byte) : (s.setX 7 v).x a = if a = 7 then (s.setX 7 v).sp else s.x a := by
  split
  next h => rw [h]
  next h => exact x_setX_ne s (Ne.symm h) v

/-- A push stores one byte, at SP - 1, wherever pc goes (43_stack_and_calls.md R180). -/
theorem memKeptBut_pushed (value : State → Byte) (s : State) (p : Nat) :
    MemKeptBut s { pushed value s with pc := p } (s.sp.toNat - 1) := fun _ h => byteAt_pushed_ne value s h

/-- A push decrements SP by 1 (43_stack_and_calls.md R180). -/
theorem toNat_sp_pushed (value : State → Byte) {s : State} (p : Nat) (h : 0 < s.sp.toNat) :
    ({ pushed value s with pc := p } : State).sp.toNat = s.sp.toNat - 1 := by
  have := toNat_sub_one h
  rw [State.sp, x_withPc, sp_pushed]
  omega

/-- A push leaves its value at the new SP (43_stack_and_calls.md R180). -/
theorem byteAt_sp_pushed (value : State → Byte) {s : State} (p : Nat) (hw : Memory.wf s.mem) (h : 0 < s.sp.toNat) :
    ({ pushed value s with pc := p } : State).byteAt ({ pushed value s with pc := p } : State).sp.toNat =
      value (s.setX 7 (s.sp - 1)) := by
  rw [toNat_sp_pushed value p h]
  exact byteAt_pushed_self value hw

/-! ## The effects on memory -/

/-- Only PUSH's and CALL's effects write memory, by the push primitive within its bounds (20_memory.md R53). -/
theorem effect_mem_cases {s t : State} {i : Instr} (h : Effect s i t) :
    MemKept s t ∨ (i.operation ∈ [.push, .call] ∧ s.cfg.stackLimit < s.sp.toNat ∧
      s.sp.toNat - 1 < s.cfg.memSize ∧ MemKeptBut s t (s.sp.toNat - 1)) := by
  cases h with
  | push a h1 h2 => exact .inr ⟨by simp [Instr.operation], h1, h2, memKeptBut_pushed _ s _⟩
  | call a h0 h1 h2 => exact .inr ⟨by simp [Instr.operation], h1, h2, memKeptBut_pushed _ s _⟩
  | _ => exact .inl fun _ => rfl

/-- What PUSH's effect leaves at SP, inside memory (43_stack_and_calls.md R182). -/
theorem effect_push {s t : State} {a : Byte} (h : Effect s (.push a) t) (hw : Memory.wf s.mem) :
    t.sp.toNat < s.cfg.memSize ∧ t.byteAt t.sp.toNat = if a = 7 then t.sp else s.x a := by
  cases h with
  | push _ h1 h2 =>
    have room : 0 < s.sp.toNat := by omega
    exact ⟨(toNat_sp_pushed _ _ room).trans_lt h2, (byteAt_sp_pushed _ _ hw room).trans (x_setX_sp s _ a)⟩
  | reg _ _ _ _ hi => simp [Instr.operation] at hi

/-- What CALL's effect leaves at SP, inside memory, and the register it jumps by (43_stack_and_calls.md R184). -/
theorem effect_call {s t : State} {a : Byte} (h : Effect s (.call a) t) (hw : Memory.wf s.mem) :
    t.sp.toNat < s.cfg.memSize ∧ t.byteAt t.sp.toNat = BitVec.ofNat 8 (s.pc + 2) ∧
      t.pc = (if a = 7 then t.sp else s.x a).toNat := by
  cases h with
  | call _ h0 h1 h2 =>
    have room : 0 < s.sp.toNat := by omega
    exact ⟨(toNat_sp_pushed _ _ room).trans_lt h2, byteAt_sp_pushed _ _ hw room,
      congrArg BitVec.toNat (x_setX_sp s _ a)⟩
  | reg _ _ _ _ hi => simp [Instr.operation] at hi

/-! ## What a step makes of the bytes at pc -/

/-- A running core's step latches the byte at pc (40_fetch_decode_execute.md R102; 10_state.md R31). -/
theorem step_ir {s t : State} (hr : s.run = .running) (hpc : s.pc < s.cfg.memSize) (hs : step s = .next t) :
    t.ir = s.byteAt s.pc := by
  rcases step_cases s with ⟨h, -⟩ | ⟨-, ⟨h, -⟩ | ⟨-, ⟨c, -, w⟩ | ⟨i, -, w⟩⟩⟩
  · exact absurd hr h
  · omega
  · rw [hs] at w
    injection w with w
    exact w ▸ rfl
  · exact exec_ir (w.symm.trans hs)

/-- A step at an assigned opcode that ends in no fault has the effect of that opcode's operation on the operand bytes
in memory. -/
theorem effect_of_step {s t : State} {o : Operation} (hs : step s = .next t) (hr : s.run = .running)
    (ht : t.run ≠ .faulted) (ho : dispatch s.cfg (s.byteAt s.pc) = some o) (hn : opcount (s.byteAt s.pc) = o.count) :
    Effect (s.latchIR (s.byteAt s.pc)) (o.instr (s.byteAt (s.pc + 1)) (s.byteAt (s.pc + 2))) t := by
  cases stepEnds_of_step hs with
  | stopped h => exact absurd hr h
  | faults => exact absurd rfl ht
  | completes _ o' a b hf he =>
    obtain rfl : o' = o := Option.some.inj (hf.opcode.symm.trans ho)
    rwa [instr_ignores o' a b _ _ (fun h => (hf.operandA (hn ▸ h)).2) fun h => (hf.operandB (hn ▸ h)).2] at he

/-- DECODE and OPERAND with the declared bytes inside memory (40_fetch_decode_execute.md R103, R104). -/
theorem decodeFetched_of_dispatch {s : State} {op : Byte} {o : Operation} (ho : dispatch s.cfg op = some o)
    (hn : opcount op = o.count) (hl : s.pc + opcount op < s.cfg.memSize) :
    s.decodeFetched op = .ok (o.instr (s.byteAt (s.pc + 1)) (s.byteAt (s.pc + 2))) := by
  rcases decodeFetched_cases s op with ⟨d, -⟩ | ⟨o', d, ⟨n, m, -⟩ | ⟨n, -, m, -⟩ | ⟨mA, mB, e⟩⟩
  · rw [ho] at d
    cases d
  · omega
  · omega
  · obtain rfl : o = o' := Option.some.inj (ho.symm.trans d)
    rw [hn] at mA mB
    rw [e, instr_ignores o _ _ (s.byteAt (s.pc + 1)) (s.byteAt (s.pc + 2))]
    · intro h
      simp [State.operandA, State.byteInside, mA h]
    · intro h
      simp [State.operandB, State.byteInside, mB h]

/-- A running core whose declared bytes are inside memory runs the instruction they make
(40_fetch_decode_execute.md R102-R104, R110). -/
theorem step_of_dispatch {s : State} {o : Operation} (v : s.cfg.Valid) (hr : s.run = .running)
    (ho : dispatch s.cfg (s.byteAt s.pc) = some o) (hl : s.pc + opcount (s.byteAt s.pc) < s.cfg.memSize) :
    step s = exec (o.instr (s.byteAt (s.pc + 1)) (s.byteAt (s.pc + 2))) (s.latchIR (s.byteAt s.pc)) := by
  have decoded := decodeFetched_of_dispatch (s := s.latchIR (s.byteAt s.pc)) ho (opcount_of_dispatch v ho) hl
  rcases step_cases s with ⟨h, -⟩ | ⟨-, ⟨h, -⟩ | ⟨-, ⟨c, e, -⟩ | ⟨i, e, w⟩⟩⟩
  · exact absurd hr h
  · omega
  · rw [decoded] at e
    cases e
  · obtain rfl := Except.ok.inj (decoded.symm.trans e)
    exact w

end Sys2Proof.Machine
end

section
/-! PROOFS. The statements about memory. -/

namespace Sys2Proof.Machine

/-- Settles O50: each primitive checks the bound once, and inside it is a read or a store. -/
theorem memoryPrimitivesCheckBounds : Obligations.MemoryPrimitivesCheckBounds := by
  intro s a v hw
  refine ⟨fun h => ⟨memRead_of_le h, memWrite_of_le v h⟩, fun h => ⟨memRead_of_lt h, s.setByte a v,
    memWrite_of_lt v h, ?_, fun q hq => byteAt_setByte_ne s hq v, Memory.wf_write hw a v, rfl⟩⟩
  rw [memRead_of_lt (s := s.setByte a v) h, byteAt_setByte_self hw]

/-- Settles O51: canonical memories with equal contents have the same entries, in the one rising order. -/
theorem equalContentsAreEqualMemories : Obligations.EqualContentsAreEqualMemories := by
  intro m n hm hn h
  have : Std.Asymm fun p q : Host.Cell => p.1 < q.1 := ⟨fun _ _ => Nat.lt_asymm⟩
  exact hm.1.eq_of_mem_iff hn.1 fun p => by rw [Memory.mem_iff_read hm, Memory.mem_iff_read hn, h]

/-- Settles O21: the one byte the push primitive stores is the one below SP. -/
theorem onlyPushAndCallWriteMemory : Obligations.OnlyPushAndCallWriteMemory := by
  intro s t hs addr hne
  cases stepEnds_of_step hs with
  | stopped => exact absurd rfl hne
  | faults => exact absurd rfl hne
  | completes hr o a b hf he =>
    rcases effect_mem_cases he with kept | ⟨ho, hlimit, hbound, kept⟩
    · exact absurd (kept addr) hne
    rw [Operation.operation_instr] at ho
    have hop : s.byteAt s.pc ∈ [0x4D, 0x48] := opcode_mem_of_operation_mem hf.opcode rfl ho
    obtain rfl : addr = s.sp.toNat - 1 := Classical.byContradiction fun h => hne (kept addr h)
    exact ⟨hr, by simpa using hop, Nat.sub_add_cancel (Nat.zero_lt_of_lt hlimit), hlimit, hbound⟩

/-- Settles O54: the loader's result on a memory of zeros, and the first fetch at RESET_PC. -/
theorem bootLoadsTheProgram : Obligations.BootLoadsTheProgram := by
  intro c d program v hfit
  have hcfg : (boot c d program).cfg = c := load_cfg program _ _
  have hpc : (boot c d program).pc = c.resetPc := congrArg Config.resetPc hcfg
  obtain ⟨hw, hin, inside, outside⟩ := load_spec program (State.build c) c.resetPc
    (show Memory.wf [] by decide) (show Memory.within c.memSize [] from fun p hp => nomatch hp) hfit
  have inv : Inv (boot c d program) := inv_coreReset d (hcfg.symm ▸ v) hw (hcfg.symm ▸ hin)
  refine ⟨inv, inside, outside, fun op vs hp => ?_⟩
  have first : (boot c d program).byteAt c.resetPc = op := by
    subst hp
    exact inside 0 (by simp)
  obtain ⟨t, ht⟩ := step_total (boot c d program)
  refine ⟨t, ht, ?_⟩
  rw [step_ir rfl (by rw [hpc, hcfg]; exact v.2.1) ht, hpc, first]

/-- Settles O49: the pushing step has the effect of its bytes before the write, and a later step fetches the bytes its
memory holds. -/
theorem laterFetchSeesThePush : Obligations.LaterFetchSeesThePush := by
  intro s t v hv hw hr hpc hs ht hpush
  have effect {o : Operation} (ho : opcodeTable.lookup (s.byteAt s.pc) = some o) :=
    effect_of_step hs hr (by simp [ht]) (dispatch_of_lookup ho) (opcodeTable_row _ o ho).1
  obtain ⟨hbound, hbyte, hjump⟩ : t.sp.toNat < s.cfg.memSize ∧ t.byteAt t.sp.toNat = v ∧ (s.byteAt s.pc = 0x48 →
      t.pc = (if s.byteAt (s.pc + 1) = 7 then t.sp else s.x (s.byteAt (s.pc + 1))).toNat) := by
    rcases hpush with ⟨hop, rfl⟩ | ⟨hop, rfl⟩
    · obtain ⟨hbound, hbyte⟩ := effect_push (effect (o := .push) (hop ▸ rfl)) hw
      exact ⟨hbound, hbyte, fun h => absurd (hop.symm.trans h) (by decide)⟩
    · obtain ⟨hbound, hbyte, hjump⟩ := effect_call (effect (o := .call) (hop ▸ rfl)) hw
      exact ⟨hbound, hbyte, fun _ => hjump⟩
  have hcfg : t.cfg = s.cfg := parametersNeverChange.1 s t hs
  refine ⟨hbyte, step_ir hr (by omega) hs, hjump, fun u hur hucfg hubyte => ?_⟩
  rw [hcfg] at hucfg
  rw [hbyte] at hubyte
  refine ⟨fun hupc => ?_, fun h hd hl => ?_⟩
  · obtain ⟨w, hstep⟩ := step_total u
    refine ⟨w, hstep, ?_⟩
    rw [step_ir hur (by rw [hupc, hucfg]; exact hbound) hstep, hupc, hubyte]
  · rw [← opcount_div] at hl
    have later := step_of_dispatch (hucfg ▸ hv) hur hd hl
    refine ⟨fun hA => ?_, fun hB => ?_⟩
    · rwa [hA, hubyte] at later
    · rwa [hB, hubyte] at later

end Sys2Proof.Machine
end

section
/-! SUPPORT. The encoding: what decodes, from the opcode's operation and its operand bytes, and the count of unassigned
bytes. -/

namespace Sys2Proof

/-! ## Decoding -/

/-- Of two fetched operand bytes, the declared ones are the first of those there (30_encoding.md R70, R71). -/
theorem take_fetched_pair {xs : List Byte} {n : Nat} (le2 : n ≤ 2) (hA : 1 ≤ n → xs[0]? ≠ none)
    (hB : 2 ≤ n → xs[1]? ≠ none) : [xs[0]?.getD 0, xs[1]?.getD 0].take n = xs.take n := by
  obtain rfl | rfl | rfl : n = 0 ∨ n = 1 ∨ n = 2 := by omega
  · rfl
  · cases xs with
    | nil => exact absurd rfl (hA le_rfl)
    | cons x xs => rfl
  · match xs with
    | [] | [_] => exact absurd rfl (hB le_rfl)
    | _ :: _ :: _ => rfl

/-- What decodes is the opcode's operation, with the declared bytes taken from those after the opcode. -/
theorem dispatch_of_decode {c : Config} {op : Byte} {xs rest : List Byte} {i : Instr}
    (e : decode c (op :: xs) = .ok (i, rest)) :
    dispatch c op = some i.operation ∧ xs.drop (opcount op) = rest ∧
      (opcount op = i.operation.count → xs.take (opcount op) = i.operands) := by
  rcases decode_cons c op xs with ⟨-, f⟩ | ⟨h, hd, ⟨-, -, f⟩ | ⟨-, -, -, f⟩ | ⟨hA, hB, f⟩⟩ <;> rw [e] at f <;> cases f
  rw [Operation.operation_instr]
  exact ⟨hd, rfl, fun hn => by rw [Operation.operands_instr, ← hn, take_fetched_pair (hn ▸ h.count_le_two) hA hB]⟩

/-- An opcode followed by its operation's operand bytes decodes, and leaves the bytes after them. -/
theorem decode_operands_append {c : Config} {op : Byte} (i : Instr) (hd : dispatch c op = some i.operation)
    (hn : opcount op = i.operation.count) (rest : List Byte) :
    decode c (op :: (i.operands ++ rest)) = .ok (i, rest) := by
  rw [← Instr.length_operands] at hn
  have there (k : Nat) (hk : k + 1 ≤ opcount op) : (i.operands ++ rest)[k]? ≠ none := by
    rw [ne_eq, List.getElem?_eq_none_iff, List.length_append]
    omega
  simp only [decode, hd, decodeOperands_ok (there 0) (there 1)]
  rw [Instr.operation_instr_operands, hn, List.drop_left]

/-- A fixed row's opcode followed by the row's operand bytes decodes to the row's instruction (30_encoding.md R74). -/
theorem decode_row (c : Config) {op : Byte} (i : Instr) (e : opcodeTable.lookup op = some i.operation)
    (rest : List Byte) : decode c (op :: (i.operands ++ rest)) = .ok (i, rest) :=
  decode_operands_append i (dispatch_of_lookup e) (opcodeTable_row op _ e).1 rest

theorem dispatch_andOpcode {c : Config} (v : c.Valid) {k : Byte} (e : c.andOpcode = some k) :
    dispatch c k = some .and := (opcode_eq_some_iff v).1 e

/-- A valid AND_OPCODE followed by two operand bytes decodes to AND (30_encoding.md R75). -/
theorem decode_andOpcode {c : Config} (v : c.Valid) {k : Byte} (e : c.andOpcode = some k) (a b : Byte)
    (rest : List Byte) : decode c (k :: a :: b :: rest) = .ok (.and a b, rest) :=
  have hd := dispatch_andOpcode v e
  decode_operands_append (.and a b) hd (opcount_of_dispatch v hd) rest

/-- Bytes decode exactly when they begin with the encoding of what they decode to (30_encoding.md R71, R78). -/
theorem decode_eq_ok_iff {c : Config} (v : c.Valid) {bytes rest : List Byte} {i : Instr} :
    decode c bytes = .ok (i, rest) ↔ ∃ pre, encode c i = some pre ∧ bytes = pre ++ rest := by
  constructor
  · intro e
    cases bytes with
    | nil => cases e
    | cons op xs =>
      obtain ⟨hd, hdrop, htake⟩ := dispatch_of_decode e
      refine ⟨op :: i.operands, by rw [encode, (opcode_eq_some_iff v).2 hd]; rfl, ?_⟩
      rw [List.cons_append, ← htake (opcount_of_dispatch v hd), ← hdrop, List.take_append_drop]
  · rintro ⟨pre, he, rfl⟩
    obtain ⟨op, ho, rfl⟩ := Option.map_eq_some_iff.1 he
    have hd := (opcode_eq_some_iff v).1 ho
    exact decode_operands_append i hd (opcount_of_dispatch v hd) rest

/-- The decoder rejects an opcode as unknown exactly where dispatch has no operation (30_encoding.md R77). -/
theorem decode_eq_unknownOpcode_iff (c : Config) (op : Byte) (xs : List Byte) :
    decode c (op :: xs) = .error (.unknownOpcode op) ↔ dispatch c op = none := by
  rcases decode_cons c op xs with ⟨hd, f⟩ | ⟨h, hd, ⟨-, -, f⟩ | ⟨-, -, -, f⟩ | ⟨-, -, f⟩⟩ <;> simp [hd, f]

/-! ## Encoding -/

/-- Every operation but AND has a row (30_encoding.md R74). -/
theorem opcode_ne_none {c : Config} {o : Operation} (h : o = .and → c.andOpcode ≠ none) : o.opcode c ≠ none := by
  cases o with
  | and => exact h rfl
  | _ => exact Option.some_ne_none _

/-! ## The unassigned bytes -/

/-- The bytes AND_OPCODE may be are the unassigned ones with bits 7:6 = 0b10 (30_encoding.md R75). -/
theorem andOpcodeAllowed_iff : ∀ k : Byte,
    Config.andOpcodeAllowed k = true ↔ k.toNat / 64 = 2 ∧ k ∉ Machine.assignedOpcodes := by decide

/-- Every byte AND_OPCODE may be is some valid configuration's. -/
theorem valid_andOpcode {k : Byte} (h : Config.andOpcodeAllowed k = true) : ({ andOpcode := some k } : Config).Valid :=
  ⟨(by decide : 256 ∈ Config.memSizes), (by decide : 0 < 256), h, (by decide : 0 < 0xF4)⟩

/-- The opcode bytes of a configuration: the map of 30_encoding.md R77, and AND_OPCODE where it is present. -/
def Config.opcodes (c : Config) : List Byte := Machine.assignedOpcodes ++ c.andOpcode.toList

/-- Dispatch is unknown exactly outside a configuration's opcodes (30_encoding.md R77). -/
theorem isNone_dispatch (c : Config) (op : Byte) : (dispatch c op).isNone = !decide (op ∈ c.opcodes) := by
  rw [Bool.eq_iff_iff, Option.isNone_iff_eq_none, dispatch_eq_none_iff]
  simp [Config.opcodes]

/-- No opcode stands twice: AND_OPCODE is not in the map (30_encoding.md R75). -/
theorem nodup_opcodes {c : Config} (v : c.Valid) : c.opcodes.Nodup := by
  have map : Machine.assignedOpcodes.Nodup := by decide
  unfold Config.opcodes
  rcases hk : c.andOpcode with _ | k
  · simpa using map
  · have free := (lookup_eq_none_iff k).1 (andOpcode_free k (andOpcode_allowed v hk)).1
    exact map.append (List.nodup_singleton k) (by simpa using free)

theorem length_opcodes (c : Config) : c.opcodes.length = if c.andOpcode = none then 19 else 20 := by
  unfold Config.opcodes
  cases c.andOpcode <;> rfl

/-- Distinct bytes and the byte values outside them are 256 together. -/
theorem length_add_length_notMem {l : List Byte} (nd : l.Nodup) :
    l.length + ((List.range 256).filter fun n => !decide (BitVec.ofNat 8 n ∈ l)).length = 256 := by
  have values : ((List.range 256).filter fun n => decide (BitVec.ofNat 8 n ∈ l)).Perm (l.map BitVec.toNat) := by
    refine (List.perm_ext_iff_of_nodup (List.nodup_range.filter _) (nd.map BitVec.toNat_injective)).2 fun n => ?_
    simp only [List.mem_filter, List.mem_range, decide_eq_true_eq, List.mem_map]
    constructor
    · rintro ⟨hn, h⟩
      exact ⟨_, h, by rw [BitVec.toNat_ofNat, Nat.mod_eq_of_lt hn]⟩
    · rintro ⟨b, hb, rfl⟩
      exact ⟨b.isLt, by rwa [BitVec.ofNat_toNat, BitVec.setWidth_eq]⟩
  calc l.length + ((List.range 256).filter fun n => !decide (BitVec.ofNat 8 n ∈ l)).length
    _ = (List.range 256).length := by
      rw [List.length_eq_length_filter_add (l := List.range 256) fun n => decide (BitVec.ofNat 8 n ∈ l),
        values.length_eq, List.length_map]
    _ = 256 := List.length_range

/-- The unassigned bytes are 256 less the 19 or 20 opcodes (30_encoding.md R77). -/
theorem length_unassigned {c : Config} (v : c.Valid) :
    ((List.range 256).filter fun n => (dispatch c (BitVec.ofNat 8 n)).isNone).length =
      if c.andOpcode = none then 237 else 236 := by
  have total := length_add_length_notMem (nodup_opcodes v)
  rw [length_opcodes] at total
  simp only [isNone_dispatch]
  split_ifs at total ⊢ <;> omega

end Sys2Proof
end

section
/-! PROOFS. The statements about the encoding. -/

namespace Sys2Proof

/-- Settles O3: every instruction has an opcode, and bytes that begin with an encoding decode to what it encodes. -/
theorem decodeOfEncode : Obligations.DecodeOfEncode := by
  intro c i rest v hand
  obtain ⟨op, ho⟩ := Option.ne_none_iff_exists'.1 (opcode_ne_none hand)
  have he : encode c i = some (op :: i.operands) := by rw [encode, ho, Option.map_some]
  exact ⟨_, he, (decode_eq_ok_iff v).2 ⟨_, he, rfl⟩⟩

/-- Settles O4: only bytes that begin with an instruction's encoding decode to it. -/
theorem encodeOfDecode : Obligations.EncodeOfDecode := fun _ _ _ _ v e => (decode_eq_ok_iff v).1 e

/-- Settles O2: 0xB3 has a row, which no AND_OPCODE can take from it, and AND has none. -/
theorem andOpcodeIsAParameter : Obligations.AndOpcodeIsAParameter := by
  refine ⟨fun c a b rest => decode_row c (.add a b) rfl rest, fun c bytes a b rest hnone e => ?_,
    fun c k a b rest v e => decode_andOpcode v e a b rest, fun k => ?_⟩
  · cases bytes with
    | nil => cases e
    | cons op xs =>
      have hd : dispatch c op = some .and := (dispatch_of_decode e).1
      rcases dispatch_eq_some hd with hrow | ⟨-, hand, -⟩
      · exact (opcodeTable_row op _ hrow).2.1 rfl
      · rw [hnone] at hand
        cases hand
  · rw [← andOpcodeAllowed_iff]
    exact ⟨fun ⟨_, v, e⟩ => andOpcode_allowed v e, fun h => ⟨_, valid_andOpcode h, rfl⟩⟩

/-- Settles O5: the decoder's unknown opcodes are dispatch's, and a present AND_OPCODE is one of the bytes without a
row. -/
theorem unassignedOpcodesAreUnknown : Obligations.UnassignedOpcodesAreUnknown := fun c v =>
  ⟨fun op rest => (decode_eq_unknownOpcode_iff c op rest).trans (dispatch_eq_none_iff c op), length_unassigned v⟩

/-- Settles O6: the opcode's bits 7:6 are the operation's operand count. -/
theorem lengthIsInTheFirstByte : Obligations.LengthIsInTheFirstByte := by
  intro c op xs i rest v e
  obtain ⟨hd, hdrop, htake⟩ := dispatch_of_decode e
  have hn := opcount_of_dispatch v hd
  have hlen : i.operands.length = opcount op := i.length_operands.trans hn.symm
  rw [← opcount_div]
  refine ⟨congrArg (· + 1) hlen, ?_, ?_, (congrArg List.length (htake hn)).trans hlen⟩
  · exact Nat.succ_le_succ (i.length_operands.trans_le i.operation.count_le_two)
  · rw [← hdrop, List.take_append_drop]

/-- Settles O1, row by row. -/
theorem opcodeTableRowsDecode : Obligations.OpcodeTableRowsDecode := by
  intro c a b rest
  exact ⟨decode_row c .hlt rfl rest, decode_row c (.call a) rfl rest, decode_row c .ret rfl rest,
    decode_row c (.dec a) rfl rest, decode_row c (.inc a) rfl rest, decode_row c (.not a) rfl rest,
    decode_row c (.ldi a b) rfl rest, decode_row c (.prn a) rfl rest, decode_row c (.push a) rfl rest,
    decode_row c (.pop a) rfl rest, decode_row c (.add a b) rfl rest, decode_row c (.cmp a b) rfl rest,
    decode_row c (.div a b) rfl rest, decode_row c (.mod a b) rfl rest, decode_row c (.mul a b) rfl rest,
    decode_row c (.or a b) rfl rest, decode_row c (.sub a b) rfl rest, decode_row c (.xor a b) rfl rest,
    decode_row c .nop rfl rest, fun k v e => decode_andOpcode v e a b rest⟩

end Sys2Proof
end

section
/-! SUPPORT. Fetch and decode: which step each answer of FETCH, DECODE and OPERAND gives. -/

namespace Sys2Proof

/-- Bytes after an opcode that agree with decodable ones on the declared operands decode to the same instruction
(40_fetch_decode_execute.md R114). -/
theorem decode_of_take_eq {c : Config} {op : Byte} {xs ys rest : List Byte} {i : Instr} (v : c.Valid)
    (e : decode c (op :: xs) = .ok (i, rest)) (same : ys.take (opcount op) = xs.take (opcount op)) :
    decode c (op :: ys) = .ok (i, ys.drop (opcount op)) := by
  obtain ⟨hd, -, htake⟩ := dispatch_of_decode e
  have hn := opcount_of_dispatch v hd
  have hys : i.operands ++ ys.drop (opcount op) = ys := by rw [← htake hn, ← same, List.take_append_drop]
  simpa only [hys] using decode_operands_append i hd hn (ys.drop (opcount op))

/-- An opcode selects a row's operation exactly when it is the row's opcode (30_encoding.md R74). -/
theorem operation_eq_iff_opcode_eq {c : Config} {op k : Byte} {o row : Operation} (e : dispatch c op = some o)
    (hk : opcodeTable.lookup k = some row) : o = row ↔ op = k := by
  constructor
  · rintro rfl
    exact opcode_of_dispatch e (opcodeTable_row k o hk).2.2
  · rintro rfl
    exact Option.some.inj (e.symm.trans (dispatch_of_lookup hk))

namespace Machine

/-! ## What DECODE and OPERAND answer -/

theorem decodeFetched_of_decode {s : State} {op : Byte} {i : Instr} {rest : List Byte}
    (e : decode s.cfg (s.fetchedBytes op) = .ok (i, rest)) : s.decodeFetched op = .ok i := by
  simp only [State.decodeFetched, e]

theorem decodeFetched_of_dispatch_none {s : State} {op : Byte} (hd : dispatch s.cfg op = none) :
    s.decodeFetched op = .error (.unknownOpcode op) := by
  rcases decodeFetched_cases s op with ⟨-, e⟩ | ⟨o, ho, -⟩
  · exact e
  · rw [hd] at ho
    cases ho

/-- A declared operand A outside memory is the first fault of OPERAND (40_fetch_decode_execute.md R104). -/
theorem decodeFetched_of_operandA_outside {s : State} {op : Byte} (hd : dispatch s.cfg op ≠ none)
    (hn : 1 ≤ opcount op) (hA : s.cfg.memSize ≤ s.pc + 1) :
    s.decodeFetched op = .error (.addressOutOfBounds (s.pc + 1)) := by
  rcases decodeFetched_cases s op with ⟨h, -⟩ | ⟨o, -, ⟨-, -, e⟩ | ⟨-, inA, -⟩ | ⟨inA, -⟩⟩
  · exact absurd h hd
  · exact e
  · omega
  · exact absurd (inA hn) (Nat.not_lt.2 hA)

/-- With operand A inside memory, a declared operand B outside it is OPERAND's fault (40_fetch_decode_execute.md
R104). -/
theorem decodeFetched_of_operandB_outside {s : State} {op : Byte} (hd : dispatch s.cfg op ≠ none)
    (hn : 2 ≤ opcount op) (hA : s.pc + 1 < s.cfg.memSize) (hB : s.cfg.memSize ≤ s.pc + 2) :
    s.decodeFetched op = .error (.addressOutOfBounds (s.pc + 2)) := by
  rcases decodeFetched_cases s op with ⟨h, -⟩ | ⟨o, -, ⟨-, outA, -⟩ | ⟨-, -, -, e⟩ | ⟨-, inB, -⟩⟩
  · exact absurd h hd
  · omega
  · exact e
  · exact absurd (inB hn) (Nat.not_lt.2 hB)

/-! ## The step each answer gives -/

/-- A pc outside memory is FETCH's fault, and IR is not written (40_fetch_decode_execute.md R102). -/
theorem step_of_pc_outside {s : State} (hr : s.run = .running) (hpc : s.cfg.memSize ≤ s.pc) :
    step s = .next (s.takeFault (.addressOutOfBounds s.pc)) := by
  simp only [step, hr, fetchOpcode_error hpc]

theorem step_of_decodeFetched_ok {s : State} {i : Instr} (hr : s.run = .running) (hpc : s.pc < s.cfg.memSize)
    (e : (s.latchIR (s.byteAt s.pc)).decodeFetched (s.byteAt s.pc) = .ok i) :
    step s = exec i (s.latchIR (s.byteAt s.pc)) := by
  simp only [step, hr, fetchOpcode_ok hpc, e]

theorem step_of_decodeFetched_error {s : State} {c : FaultCause} (hr : s.run = .running)
    (hpc : s.pc < s.cfg.memSize) (e : (s.latchIR (s.byteAt s.pc)).decodeFetched (s.byteAt s.pc) = .error c) :
    ∃ t, step s = .next t ∧ FaultTaken (s.latchIR (s.byteAt s.pc)) t c :=
  ⟨_, by simp only [step, hr, fetchOpcode_ok hpc, e], faultTaken_takeFault _ c⟩

/-! ## What a step leaves in IR and pc -/

/-- IR after a step of a running core: the byte at pc if the fetch succeeded, else as before
(40_fetch_decode_execute.md R102, R108). -/
theorem step_ir_eq {s t : State} (hr : s.run = .running) (hs : step s = .next t) :
    t.ir = if s.pc < s.cfg.memSize then s.byteAt s.pc else s.ir := by
  split
  next hpc => exact step_ir hr hpc hs
  next hpc =>
    rw [step_of_pc_outside hr (Nat.not_lt.1 hpc)] at hs
    injection hs with hs
    exact hs ▸ rfl

/-- Where a completed instruction leaves pc, by the fetched opcode byte (40_fetch_decode_execute.md R107, R113). -/
theorem FetchesAs.pc_eq {s t : State} {o : Operation} {a b : Byte} (h : FetchesAs s o a b) (v : s.cfg.Valid)
    (he : Effect (s.latchIR (s.byteAt s.pc)) (o.instr a b) t) :
    (s.byteAt s.pc ≠ 0x48 → s.byteAt s.pc ≠ 0x09 → t.pc = s.pc + (s.byteAt s.pc).toNat / 64 + 1) ∧
    (s.byteAt s.pc = 0x48 ∨ s.byteAt s.pc = 0x09 → t.pc < 256) := by
  have call : o = .call ↔ s.byteAt s.pc = 0x48 := operation_eq_iff_opcode_eq h.opcode rfl
  have ret : o = .ret ↔ s.byteAt s.pc = 0x09 := operation_eq_iff_opcode_eq h.opcode rfl
  have declared : (o.instr a b).operands.length = (s.byteAt s.pc).toNat / 64 := by
    rw [Operation.length_operands_instr, ← opcount_of_dispatch v h.opcode, opcount_div]
  have law := effect_pc he
  rwa [Operation.operation_instr, declared, ne_eq, ne_eq, call, ret] at law

end Machine

end Sys2Proof
end

section
/-! PROOFS. The statements about fetch, decode and execute. -/

namespace Sys2Proof.Machine

/-- Settles O7: the declared bytes are the operands of the decoded instruction. -/
theorem undeclaredBytesNeverMatter : Obligations.UndeclaredBytesNeverMatter :=
  fun _ _ _ _ _ _ v e same => ⟨_, decode_of_take_eq v e same⟩

/-- Settles O9: FETCH's fault is the whole step, and no later stage writes IR. -/
theorem fetchReadsAtPcOrFaults : Obligations.FetchReadsAtPcOrFaults := by
  refine fun s hr => ⟨fun hpc => ⟨_, step_of_pc_outside hr hpc, faultTaken_takeFault s _⟩, fun hpc => ?_⟩
  obtain ⟨t, ht⟩ := step_total s
  exact ⟨t, ht, step_ir hr hpc ht⟩

/-- Settles O10: outside the map and not AND_OPCODE, dispatch has no operation. -/
theorem unassignedOpcodeFaults : Obligations.UnassignedOpcodeFaults := by
  intro s _ hr hpc hmap hand
  have hd : dispatch s.cfg (s.byteAt s.pc) = none := (dispatch_eq_none_iff _ _).2 ⟨hmap, hand⟩
  exact step_of_decodeFetched_error hr hpc (decodeFetched_of_dispatch_none hd)

/-- Settles O11: OPERAND's two faults, A before B, and the instruction of the declared bytes. -/
theorem declaredOperandsMustBeInMemory : Obligations.DeclaredOperandsMustBeInMemory := by
  intro s o v hr hpc ho
  have hd : dispatch s.cfg (s.byteAt s.pc) ≠ none := by simp [ho]
  rw [← opcount_div]
  refine ⟨fun hn hA => ?_, fun hn hA hB => ?_, fun hl => step_of_dispatch v hr ho hl⟩
  · exact step_of_decodeFetched_error hr hpc (decodeFetched_of_operandA_outside hd hn hA)
  · exact step_of_decodeFetched_error hr hpc (decodeFetched_of_operandB_outside hd hn hA hB)

/-- Settles O12: a stopped core's runs stay where they are, and reset sets the run state. -/
theorem stoppedCoreChangesOnlyByReset : Obligations.StoppedCoreChangesOnlyByReset := fun _ hr =>
  ⟨fun k _ ht => reaches_unique ht (reaches_stopped hr k), reaches_stopped hr, fun _ => rfl⟩

/-- Settles O14: a faulting step takes its fault after at most the latch of IR. -/
theorem faultingStepIsPrecise : Obligations.FaultingStepIsPrecise := by
  intro s t hr hs ht
  have hir := step_ir_eq hr hs
  cases stepEnds_of_step hs with
  | stopped h => exact absurd hr h
  | faults _ ir c => exact ⟨c, by rw [← hir]; rfl⟩
  | completes _ o a b _ he => exact absurd ht (effect_run he hr)

/-- Settles O15: a fault is taken at the instruction's pc, and a completed effect moves pc as its opcode says. -/
theorem pcAdvancesByTheDeclaredLength : Obligations.PcAdvancesByTheDeclaredLength := by
  intro s t v hr hs
  cases stepEnds_of_step hs with
  | stopped h => exact absurd hr h
  | faults _ ir c => exact ⟨fun _ => rfl, fun h => absurd rfl h, fun h => absurd rfl h⟩
  | completes _ o a b hf he =>
    obtain ⟨sequential, jump⟩ := hf.pc_eq v he
    rw [step_ir hr hf.inside hs]
    exact ⟨fun ht => absurd ht (effect_run he hr), fun _ => sequential, fun _ => jump⟩

/-- Settles O8: the bytes at pc are those the step decodes. -/
theorem stepRunsTheDecodedInstruction : Obligations.StepRunsTheDecodedInstruction := by
  intro s i rest hr hpc e
  rw [bytesAtPc_eq hpc] at e
  exact step_of_decodeFetched_ok hr hpc (decodeFetched_of_decode (s := s.latchIR (s.byteAt s.pc)) e)

end Sys2Proof.Machine
end

section
/-! SUPPORT. The instructions that compute on registers: when REGCHECK lets them run, and what the fitting, the
bitwise and the dividing ones do. -/

namespace Sys2Proof.Machine

variable {i : Instr} {a b : Byte} {s t : State}

/-! ## REGCHECK -/

theorem regCheck_of_readable_one (h1 : regOperands i = [a]) (h2 : readRegs i = [a]) (ha : a.toNat < 8)
    (hr : Readable s [a]) : regCheck i s = none :=
  regCheck_of_readable (by simpa [h1] using ha) (h2 ▸ hr)

theorem regCheck_of_readable_two (h1 : regOperands i = [a, b]) (h2 : readRegs i = [a, b]) (ha : a.toNat < 8)
    (hb : b.toNat < 8) (hr : Readable s [a, b]) : regCheck i s = none :=
  regCheck_of_readable (by simpa [h1] using ⟨ha, hb⟩) (h2 ▸ hr)

/-- An instruction that ends unfaulted has passed REGCHECK (40_fetch_decode_execute.md R105). -/
theorem regCheck_of_exec (e : exec i s = .next t) (ht : t.run ≠ .faulted) : regCheck i s = none := by
  rcases hk : regCheck i s with _ | c
  · rfl
  · rw [exec_of_regCheck_some hk] at e
    injection e with e
    exact absurd (e ▸ rfl) ht

/-! ## Fitted results -/

/-- What an instruction of two registers whose handler writes a fitted result does (41_alu.md R131). -/
theorem exec_writeFit_two {v : Int} (h1 : regOperands i = [a, b]) (h2 : readRegs i = [a, b])
    (hh : handlerOf i s = writeFit a v s) :
    (a.toNat < 8 → b.toNat < 8 → Readable s [a, b] → Fits s v →
      ∃ t, exec i s = .next t ∧ ((t.x a).toNat : Int) = fittedValue s.cfg.overflow v ∧
        t.pc = s.pc + i.operands.length + 1 ∧ OnlyRegister s t a) ∧
    (a.toNat < 8 → b.toNat < 8 → Readable s [a, b] → ¬ Fits s v →
      ∃ t, exec i s = .next t ∧ FaultTaken s t (.arithmeticOverflow v)) :=
  ⟨fun ha hb hr => (exec_writeFit (regCheck_of_readable_two h1 h2 ha hb hr) ha hh).1,
    fun ha hb hr => (exec_writeFit (regCheck_of_readable_two h1 h2 ha hb hr) ha hh).2⟩

/-- Under the FAULT policy a result outside 0..255 does not fit (41_alu.md R131). -/
theorem not_fits {v : Int} (hp : s.cfg.overflow = .fault) (hv : v < 0 ∨ 255 < v) : ¬ Fits s v := fun h => by
  have := h hp
  omega

/-! ## Bitwise results -/

/-- What an instruction of two registers does whose handler writes the byte that `f` makes bit by bit
(41_alu.md R134-R136). -/
theorem exec_bitwise_two {v : Byte} (f : Bool → Bool → Bool) (h1 : regOperands i = [a, b])
    (h2 : readRegs i = [a, b]) (hh : handlerOf i s = .next (s.setX a v))
    (hv : ∀ k, v.getLsbD k = f ((s.x a).getLsbD k) ((s.x b).getLsbD k)) (ha : a.toNat < 8) (hb : b.toNat < 8)
    (hr : Readable s [a, b]) :
    ∃ t, exec i s = .next t ∧ (∀ k, k < 8 → (t.x a).getLsbD k = f ((s.x a).getLsbD k) ((s.x b).getLsbD k)) ∧
      t.pc = s.pc + i.operands.length + 1 ∧ OnlyRegister s t a := by
  obtain ⟨t, e, hx, frame⟩ := exec_setX (regCheck_of_readable_two h1 h2 ha hb hr) ha hh
  exact ⟨t, e, fun k _ => hx ▸ hv k, frame⟩

/-! ## Quotients and remainders -/

/-- What an instruction whose handler divides by register `b` does, where its result `q` is at most the dividend
(41_alu.md R142, R143). -/
theorem exec_divide {q : Nat} (hk : regCheck i s = none) (ha : a.toNat < 8) (hq : q ≤ (s.x a).toNat)
    (hh : handlerOf i s = if s.x b = 0 then .raise (.divisionByZero b) else .next (s.setX a (BitVec.ofNat 8 q))) :
    ((s.x b).toNat ≠ 0 → ∃ t, exec i s = .next t ∧ (t.x a).toNat = q ∧ t.pc = s.pc + i.operands.length + 1 ∧
      OnlyRegister s t a) ∧
    ((s.x b).toNat = 0 → ∃ t, exec i s = .next t ∧ FaultTaken s t (.divisionByZero b)) := by
  constructor
  · intro nonzero
    have hb : s.x b ≠ 0 := fun h => nonzero (by rw [h]; rfl)
    rw [if_neg hb] at hh
    obtain ⟨t, e, hx, frame⟩ := exec_setX hk ha hh
    have fits : q < 2 ^ 8 := hq.trans_lt (s.x a).isLt
    exact ⟨t, e, by rw [hx, BitVec.toNat_ofNat, Nat.mod_eq_of_lt fits], frame⟩
  · intro zero
    have hb : s.x b = 0 := BitVec.eq_of_toNat_eq zero
    rw [exec_of_regCheck_none hk, hh, if_pos hb]
    exact ⟨_, rfl, faultTaken_takeFault s _⟩

/-- What an instruction of two registers whose handler divides the first by the second does (41_alu.md R142, R143). -/
theorem exec_divide_two {q : Nat} (h1 : regOperands i = [a, b]) (h2 : readRegs i = [a, b]) (hq : q ≤ (s.x a).toNat)
    (hh : handlerOf i s = if s.x b = 0 then .raise (.divisionByZero b) else .next (s.setX a (BitVec.ofNat 8 q))) :
    (a.toNat < 8 → b.toNat < 8 → Readable s [a, b] → (s.x b).toNat ≠ 0 →
      ∃ t, exec i s = .next t ∧ (t.x a).toNat = q ∧ t.pc = s.pc + i.operands.length + 1 ∧ OnlyRegister s t a) ∧
    (a.toNat < 8 → b.toNat < 8 → Readable s [a, b] → (s.x b).toNat = 0 →
      ∃ t, exec i s = .next t ∧ FaultTaken s t (.divisionByZero b)) :=
  ⟨fun ha hb hr => (exec_divide (regCheck_of_readable_two h1 h2 ha hb hr) ha hq hh).1,
    fun ha hb hr => (exec_divide (regCheck_of_readable_two h1 h2 ha hb hr) ha hq hh).2⟩

end Sys2Proof.Machine
end

section
/-! PROOFS. The statements about the ALU instructions. -/

namespace Sys2Proof.Machine

/-- Settles O25: ADD's handler fits the exact sum. -/
theorem addWritesTheFittedSum : Obligations.AddWritesTheFittedSum := fun s a b =>
  ⟨decode_row s.cfg (.add a b) rfl, checksTwoOperands rfl rfl s, exec_writeFit_two rfl rfl rfl⟩

/-- Settles O26: SUB's handler fits the exact difference. -/
theorem subWritesTheFittedDifference : Obligations.SubWritesTheFittedDifference := fun s a b =>
  ⟨decode_row s.cfg (.sub a b) rfl, checksTwoOperands rfl rfl s, exec_writeFit_two rfl rfl rfl⟩

/-- Settles O27: MUL's handler fits the exact product. -/
theorem mulWritesTheFittedProduct : Obligations.MulWritesTheFittedProduct := fun s a b =>
  ⟨decode_row s.cfg (.mul a b) rfl, checksTwoOperands rfl rfl s, exec_writeFit_two rfl rfl rfl⟩

/-- Settles O28: INC's handler fits the successor, and that of 255 is 256. -/
theorem incWritesTheFittedSuccessor : Obligations.IncWritesTheFittedSuccessor := by
  intro s a
  have fitted (ha : a.toNat < 8) (hr : Readable s [a]) :=
    exec_writeFit (i := .inc a) (v := (s.x a).toNat + 1) (regCheck_of_readable_one rfl rfl ha hr) ha rfl
  refine ⟨decode_row s.cfg (.inc a) rfl, checksOneOperand rfl rfl s, fun ha hr => (fitted ha hr).1, ?_⟩
  intro ha hr hp hx
  have overflow : ((s.x a).toNat : Int) + 1 = 256 := by omega
  exact overflow ▸ (fitted ha hr).2 (not_fits hp (by omega))

/-- Settles O29: DEC's handler fits the predecessor, and that of 0 is -1. -/
theorem decWritesTheFittedPredecessor : Obligations.DecWritesTheFittedPredecessor := by
  intro s a
  have fitted (ha : a.toNat < 8) (hr : Readable s [a]) :=
    exec_writeFit (i := .dec a) (v := (s.x a).toNat - 1) (regCheck_of_readable_one rfl rfl ha hr) ha rfl
  refine ⟨decode_row s.cfg (.dec a) rfl, checksOneOperand rfl rfl s, fun ha hr => (fitted ha hr).1, ?_⟩
  intro ha hr hp hx
  have overflow : ((s.x a).toNat : Int) - 1 = -1 := by omega
  exact overflow ▸ (fitted ha hr).2 (not_fits hp (by omega))

/-- Settles O30: `0xFF XOR x` is the complement of `x`. -/
theorem notWritesTheComplement : Obligations.NotWritesTheComplement := by
  intro s a
  refine ⟨decode_row s.cfg (.not a) rfl, checksOneOperand rfl rfl s, fun ha hr => ?_⟩
  have complement : 0xFF ^^^ s.x a = ~~~ s.x a := BitVec.allOnes_xor
  obtain ⟨t, e, hx, hpc, frame⟩ := exec_setX (i := .not a) (regCheck_of_readable_one rfl rfl ha hr) ha rfl
  rw [complement] at hx
  exact ⟨t, e, by rw [hx, BitVec.toNat_not], fun k hk => by simp [hx, hk], hpc, frame⟩

/-- Settles O31: AND's opcode is AND_OPCODE alone, and its handler writes the AND. -/
theorem andWritesTheBitwiseAnd : Obligations.AndWritesTheBitwiseAnd := by
  intro s a b
  obtain ⟨-, absent, -⟩ := andOpcodeIsAParameter
  exact ⟨fun k rest v e => decode_andOpcode v e a b rest, absent s.cfg, checksTwoOperands rfl rfl s,
    exec_bitwise_two (· && ·) rfl rfl rfl fun _ => BitVec.getLsbD_and⟩

/-- Settles O32: OR's handler writes the OR. -/
theorem orWritesTheBitwiseOr : Obligations.OrWritesTheBitwiseOr := fun s a b =>
  ⟨decode_row s.cfg (.or a b) rfl, checksTwoOperands rfl rfl s,
    exec_bitwise_two (· || ·) rfl rfl rfl fun _ => BitVec.getLsbD_or⟩

/-- Settles O33: XOR's handler writes the XOR. -/
theorem xorWritesTheBitwiseXor : Obligations.XorWritesTheBitwiseXor := fun s a b =>
  ⟨decode_row s.cfg (.xor a b) rfl, checksTwoOperands rfl rfl s,
    exec_bitwise_two (· ^^ ·) rfl rfl rfl fun _ => BitVec.getLsbD_xor⟩

/-- Settles O34: the quotient is at most the dividend, so it is a byte. -/
theorem divWritesTheQuotient : Obligations.DivWritesTheQuotient := fun s a b =>
  ⟨decode_row s.cfg (.div a b) rfl, checksTwoOperands rfl rfl s, exec_divide_two rfl rfl (Nat.div_le_self _ _) rfl⟩

/-- Settles O35: the remainder is at most the dividend, so it is a byte. -/
theorem modWritesTheRemainder : Obligations.ModWritesTheRemainder := fun s a b =>
  ⟨decode_row s.cfg (.mod a b) rfl, checksTwoOperands rfl rfl s, exec_divide_two rfl rfl (Nat.mod_le _ _) rfl⟩

/-- Settles O36: the two results are the quotient and the remainder of one division. -/
theorem quotientAndRemainderMakeTheDividend : Obligations.QuotientAndRemainderMakeTheDividend := by
  intro s t u a b ha _ nonzero ht hrt hu hru
  obtain ⟨t', ht', quotient, -⟩ := (exec_divide (regCheck_of_exec ht hrt) ha (Nat.div_le_self _ _) rfl).1 nonzero
  obtain ⟨u', hu', remainder, -⟩ := (exec_divide (regCheck_of_exec hu hru) ha (Nat.mod_le _ _) rfl).1 nonzero
  obtain rfl : t = t' := Host.Outcome.next.inj (ht.symm.trans ht')
  obtain rfl : u = u' := Host.Outcome.next.inj (hu.symm.trans hu')
  rw [quotient, remainder]
  exact ⟨Nat.div_add_mod' _ _, Nat.mod_lt _ (Nat.pos_of_ne_zero nonzero)⟩

/-- Settles O37: CMP's handler writes E alone. -/
theorem cmpSetsEqualOnly : Obligations.CmpSetsEqualOnly := by
  refine fun s a b => ⟨decode_row s.cfg (.cmp a b) rfl, checksTwoOperands rfl rfl s, fun ha hb hr => ?_⟩
  rw [exec_of_regCheck_none (regCheck_of_readable_two rfl rfl ha hb hr)]
  exact ⟨_, rfl, beq_iff_eq, rfl, rfl, rfl, regsKept_of_eq rfl rfl, fun _ => rfl, rfl, rfl, rfl, rfl, rfl⟩

end Sys2Proof.Machine
end

section
/-! SUPPORT. The register load, output and control instructions: what HLT and NOP do in every state, the step at an
opcode that has no operands, and the decimal digits the output is rendered in. -/

namespace Sys2Proof.Machine

/-! ## HLT and NOP -/

/-- HLT stops the run one past its byte (42_handlers.md R172). -/
theorem exec_hlt (s : State) : exec .hlt s = .next { s with pc := s.pc + 1, run := .halted } := rfl

/-- NOP moves pc alone (42_handlers.md R173). -/
theorem exec_nop (s : State) : exec .nop s = .next { s with pc := s.pc + 1 } := rfl

/-- A running core at a fixed row's opcode runs the row's instruction where it has no operands: no byte after the opcode
has to be inside memory (40_fetch_decode_execute.md R104, R110). -/
theorem step_of_row_without_operands {s : State} {op : Byte} {i : Instr} (hr : s.run = .running)
    (hpc : s.pc < s.cfg.memSize) (hop : s.byteAt s.pc = op) (e : opcodeTable.lookup op = some i.operation)
    (hi : i.operands = []) : step s = exec i (s.latchIR op) := by
  subst hop
  have row := decode_row s.cfg i e
  rw [hi] at row
  exact step_of_decodeFetched_ok hr hpc (decodeFetched_of_decode (s := s.latchIR (s.byteAt s.pc)) (row _))

/-! ## Decimal digits -/

/-- A decimal digit stands between `0` and `9` (42_handlers.md R174). -/
theorem mem_toDigits_bounds {n : Nat} {ch : Char} (h : ch ∈ Nat.toDigits 10 n) : '0' ≤ ch ∧ ch ≤ '9' :=
  Char.isDigit_iff_toNat.1 (Nat.isDigit_of_mem_toDigits (by decide) le_rfl h)

/-- The decimal digits of a number other than 0 begin with no `0` (42_handlers.md R174). -/
theorem head_toDigits_ne_zero {n : Nat} (hn : n ≠ 0) : (Nat.toDigits 10 n).head? ≠ some '0' := by
  induction n using Nat.strong_induction_on with
  | _ n ih =>
    rcases Nat.lt_or_ge n 10 with small | large
    · rw [Nat.toDigits_of_lt_base small]
      simpa using hn
    · rw [Nat.toDigits_of_base_le (by decide) large, List.head?_append_of_ne_nil _ Nat.toDigits_ne_nil]
      exact ih (n / 10) (by omega) (by omega)

end Sys2Proof.Machine
end

section
/-! PROOFS. The statements about the register load, output and control instructions. -/

namespace Sys2Proof.Machine

/-- Settles O38: LDI reads no register, and its handler writes the immediate. -/
theorem ldiWritesTheImmediate : Obligations.LdiWritesTheImmediate := by
  refine fun s a v => ⟨decode_row s.cfg (.ldi a v) rfl, checksOneOperand rfl rfl s, fun ha => ?_⟩
  have readable : Readable s [] := .inr fun _ h => nomatch h
  exact exec_setX (i := .ldi a v) (regCheck_of_readable (by simpa [regOperands] using ha) readable) ha rfl

/-- Settles O39: PRN's handler writes the output alone. -/
theorem prnEmitsTheRegister : Obligations.PrnEmitsTheRegister := by
  refine fun s a => ⟨decode_row s.cfg (.prn a) rfl, checksOneOperand rfl rfl s, fun ha hr => ?_⟩
  rw [exec_of_regCheck_none (regCheck_of_readable_one rfl rfl ha hr)]
  exact ⟨_, rfl, rfl, rfl, regsKept_of_eq rfl rfl, fun _ => rfl, rfl, rfl, rfl, rfl, rfl⟩

/-- Settles O40: HLT's one effect is the stop, and a stopped core stays as it is. -/
theorem hltHalts : Obligations.HltHalts := by
  refine ⟨fun c => decode_row c .hlt rfl, fun s => ?_, fun s hr hpc hop => ?_⟩
  · refine ⟨_, exec_hlt s, rfl, rfl, regsKept_of_eq rfl rfl, fun _ => rfl, rfl, rfl, ⟨rfl, rfl, rfl⟩, ?_⟩
    exact reaches_stopped fun halted => nomatch halted
  · rw [step_of_row_without_operands (i := .hlt) hr hpc hop rfl rfl, exec_hlt]
    exact ⟨_, rfl, rfl, rfl, rfl⟩

/-- Settles O41: NOP's one effect is the advance, and the byte 0 is its opcode. -/
theorem nopOnlyAdvances : Obligations.NopOnlyAdvances := by
  refine ⟨fun c => decode_row c .nop rfl, fun s => ⟨_, exec_nop s, rfl⟩, fun s hr hpc hop => ?_⟩
  rw [step_of_row_without_operands (i := .nop) hr hpc hop rfl rfl, exec_nop]
  rfl

/-- Settles O58: a line is the decimal digits of its byte, which read back as the byte. -/
theorem outputRendersInDecimal : Obligations.OutputRendersInDecimal := by
  refine ⟨rfl, fun _ _ => List.flatMap_cons, fun v => ?_⟩
  refine ⟨Nat.toDigits 10 v.toNat, rfl, fun _ => mem_toDigits_bounds, ?_, ?_, fun hv => head_toDigits_ne_zero ?_⟩
  · rw [← Nat.ofDigitChars_eq_foldl]
    exact Nat.ofDigitChars_ten_toDigits
  · rintro rfl
    exact Nat.toDigits_zero 10
  · exact fun zero => hv (BitVec.eq_of_toNat_eq zero)

end Sys2Proof.Machine
end

section
/-! SUPPORT. The stack and control transfer instructions: what the stack primitives fault with and how an instruction
takes that fault, the frames of a push and a pop, and a pop of the byte just pushed. -/

namespace Sys2Proof.Machine

variable {i : Instr} {a : Byte} {s : State}

/-! ## REGCHECK -/

/-- REGCHECK passes an instruction of one register where that and the registers it reads pass
(40_fetch_decode_execute.md R105). -/
theorem regCheck_of_one_operand {rs : List Byte} (h1 : regOperands i = [a]) (h2 : readRegs i = rs) (ha : a.toNat < 8)
    (hr : Readable s rs) : regCheck i s = none :=
  regCheck_of_readable (by simpa [h1] using ha) (h2 ▸ hr)

/-- RET names no register and reads R7 (40_fetch_decode_execute.md R112). -/
theorem regCheck_ret (hr : Readable s [7]) : regCheck .ret s = none :=
  regCheck_of_readable (fun _ h => nomatch h) hr

theorem regCheck_ret_of_faultsOnRead (h : FaultsOnRead s 7) : regCheck .ret s = some (.unwrittenRegisterRead 7) := by
  have unread : unreadable s 7 = true := (unreadable_iff s 7).2 h
  simp only [regCheck, regOperands, readRegs, List.find?, unread]

/-! ## Faults of the handlers -/

/-- An instruction whose handler raises takes that fault (40_fetch_decode_execute.md R108). -/
theorem faultTaken_of_raise {c : FaultCause} (hk : regCheck i s = none) (hh : handlerOf i s = .raise c) :
    ∃ t, exec i s = .next t ∧ FaultTaken s t c := by
  rw [exec_of_regCheck_none hk, hh]
  exact ⟨_, rfl, faultTaken_takeFault s c⟩

theorem push_of_le_limit (value : State → Byte) (h : s.sp.toNat ≤ s.cfg.stackLimit) :
    push value s = .error (.stackOverflow s.sp) := if_pos h

theorem push_of_outside (value : State → Byte) (room : s.cfg.stackLimit < s.sp.toNat)
    (h : s.cfg.memSize ≤ s.sp.toNat - 1) : push value s = .error (.addressOutOfBounds (s.sp.toNat - 1)) :=
  (if_neg (Nat.not_le.2 room)).trans (if_pos h)

theorem pop_of_top_le (h : 0xF4 ≤ s.sp.toNat) : pop s = .error (.stackUnderflow s.sp) := if_pos h

theorem pop_of_outside (room : s.sp.toNat < 0xF4) (h : s.cfg.memSize ≤ s.sp.toNat) :
    pop s = .error (.addressOutOfBounds s.sp.toNat) :=
  (if_neg (Nat.not_le.2 room)).trans (if_pos h)

/-- How an instruction faults whose handler raises what its push answers: SP's bound before the address's
(43_stack_and_calls.md R180). -/
theorem exec_push_faults {value : State → Byte} (hk : regCheck i s = none)
    (hh : ∀ c, push value s = .error c → handlerOf i s = .raise c) :
    (s.sp.toNat ≤ s.cfg.stackLimit → ∃ t, exec i s = .next t ∧ FaultTaken s t (.stackOverflow s.sp)) ∧
    (s.cfg.stackLimit < s.sp.toNat → s.cfg.memSize ≤ s.sp.toNat - 1 →
      ∃ t, exec i s = .next t ∧ FaultTaken s t (.addressOutOfBounds (s.sp.toNat - 1))) :=
  ⟨fun h => faultTaken_of_raise hk (hh _ (push_of_le_limit value h)),
    fun room h => faultTaken_of_raise hk (hh _ (push_of_outside value room h))⟩

/-- How an instruction faults whose handler raises what its pop answers: SP's bound before the address's
(43_stack_and_calls.md R181). -/
theorem exec_pop_faults (hk : regCheck i s = none) (hh : ∀ c, pop s = .error c → handlerOf i s = .raise c) :
    (0xF4 ≤ s.sp.toNat → ∃ t, exec i s = .next t ∧ FaultTaken s t (.stackUnderflow s.sp)) ∧
    (s.sp.toNat < 0xF4 → s.cfg.memSize ≤ s.sp.toNat →
      ∃ t, exec i s = .next t ∧ FaultTaken s t (.addressOutOfBounds s.sp.toNat)) :=
  ⟨fun h => faultTaken_of_raise hk (hh _ (pop_of_top_le h)),
    fun room h => faultTaken_of_raise hk (hh _ (pop_of_outside room h))⟩

theorem handlerOf_push_of_error {c : FaultCause} (h : push (fun s1 => s1.x a) s = .error c) :
    handlerOf (.push a) s = .raise c := by simp only [handlerOf, h]

theorem handlerOf_pop_of_error {c : FaultCause} (h : pop s = .error c) : handlerOf (.pop a) s = .raise c := by
  simp only [handlerOf, h]

theorem handlerOf_ret_of_error {c : FaultCause} (h : pop s = .error c) : handlerOf .ret s = .raise c := by
  simp only [handlerOf, h]

/-- CALL checks the return address before anything else (43_stack_and_calls.md R184). -/
theorem handlerOf_call_of_outside (h : s.cfg.memSize ≤ s.pc + 2) :
    handlerOf (.call a) s = .raise (.addressOutOfBounds (s.pc + 2)) := if_pos h

theorem handlerOf_call_of_error {c : FaultCause} (h0 : s.pc + 2 < s.cfg.memSize)
    (h : push (fun _ => BitVec.ofNat 8 (s.pc + 2)) s = .error c) : handlerOf (.call a) s = .raise c := by
  simp only [handlerOf, if_neg (Nat.not_le.2 h0), h]

/-! ## The frames of a push and a pop -/

/-- A return address inside memory is a byte (43_stack_and_calls.md R184). -/
theorem toNat_returnAddress (v : s.cfg.Valid) (h : s.pc + 2 < s.cfg.memSize) :
    (BitVec.ofNat 8 (s.pc + 2)).toNat = s.pc + 2 := by
  have := Config.memSize_le v
  rw [BitVec.toNat_ofNat, Nat.mod_eq_of_lt (by omega)]

theorem isWritten_sp_setX (s : State) (v : Byte) : (s.setX 7 v).isWritten 7 = true :=
  isWritten_setX_self s (by decide) v

theorem isWritten_sp_pushed (value : State → Byte) (s : State) (p : Nat) :
    ({ pushed value s with pc := p } : State).isWritten 7 = true := isWritten_sp_setX s (s.sp - 1)

theorem toNat_sp_pushed_add_one (value : State → Byte) (p : Nat) (h : 0 < s.sp.toNat) :
    ({ pushed value s with pc := p } : State).sp.toNat + 1 = s.sp.toNat := by
  rw [toNat_sp_pushed value p h, Nat.sub_add_cancel h]

/-- A pop and the write of its destination leave every register but these two. -/
theorem regsKept_setX_setX (s : State) (b v a w : Byte) (p : Nat) :
    RegsKept s { (s.setX b v).setX a w with pc := p } [b, a] := fun c _ hne => by
  rw [List.mem_cons, List.mem_singleton, not_or] at hne
  obtain ⟨hb, ha⟩ := hne
  exact ⟨(x_setX_ne _ (Ne.symm ha) w).trans (x_setX_ne s (Ne.symm hb) v),
    (isWritten_setX_ne _ (Ne.symm ha) w).trans (isWritten_setX_ne s (Ne.symm hb) v)⟩

/-- A POP that finds SP where a push left it takes the pushed byte and brings SP back (43_stack_and_calls.md R183,
R186). -/
theorem exec_pop_pushed (value : State → Byte) (p : Nat) (hw : Memory.wf s.mem) (ha : a.toNat < 8)
    (room : 0 < s.sp.toNat) (top : s.sp.toNat ≤ 0xF4) (inside : s.sp.toNat - 1 < s.cfg.memSize) :
    exec (.pop a) { pushed value s with pc := p } =
      .next { ((pushed value s).setX 7 s.sp).setX a (value (s.setX 7 (s.sp - 1))) with pc := p + 1 + 1 } := by
  have sp_after := toNat_sp_pushed value p room
  have readable : Readable { pushed value s with pc := p } [7] := .inr (by simpa using isWritten_sp_pushed value s p)
  have restored : (pushed value s).x 7 + 1 = s.sp := by rw [sp_pushed, BitVec.sub_add_cancel]
  rw [exec_pop (regCheck_of_one_operand rfl rfl ha readable) (by omega) (sp_after.trans_lt inside),
    byteAt_sp_pushed value p hw room, State.sp, x_withPc, restored]
  rfl

end Sys2Proof.Machine
end

section
/-! PROOFS. The statements about the stack and control transfer instructions. -/

namespace Sys2Proof.Machine

/-- Settles O42: PUSH faults as its push does, or completes in the pushed state. -/
theorem pushStoresBelowSp : Obligations.PushStoresBelowSp := by
  refine fun s a hw => ⟨decode_row s.cfg (.push a) rfl, checksOneOperand rfl rfl s, fun ha hr => ?_⟩
  have hk : regCheck (.push a) s = none := regCheck_of_one_operand rfl rfl ha hr
  obtain ⟨overflows, outside⟩ := exec_push_faults hk fun _ => handlerOf_push_of_error
  refine ⟨overflows, outside, fun room inside => ⟨_, exec_push hk room inside, ?_⟩⟩
  have stored := (byteAt_pushed_self (fun s1 => s1.x a) hw).trans (x_setX_sp s (s.sp - 1) a)
  exact ⟨toNat_sp_pushed_add_one _ _ (Nat.zero_lt_of_lt room), isWritten_sp_pushed _ s _, stored, rfl,
    regsKept_pushed _ s _, memKeptBut_pushed _ s _, rfl, rfl, rfl, rfl, rfl, rfl⟩

/-- Settles O43: POP faults as its pop does, or writes R7 and then its destination. -/
theorem popLoadsFromSp : Obligations.PopLoadsFromSp := by
  refine fun s a => ⟨decode_row s.cfg (.pop a) rfl, checksOneOperand rfl rfl s, fun ha hr => ?_⟩
  have hk : regCheck (.pop a) s = none := regCheck_of_one_operand rfl rfl ha hr
  obtain ⟨underflows, outside⟩ := exec_pop_faults hk fun _ => handlerOf_pop_of_error
  refine ⟨underflows, outside, fun room inside => ⟨_, exec_pop hk room inside, ?_⟩⟩
  have sp_after (h7 : a ≠ 7) : (((s.setX 7 (s.sp + 1)).setX a (s.byteAt s.sp.toNat)).x 7).toNat = s.sp.toNat + 1 := by
    rw [x_setX_ne _ h7, sp_setX_seven, toNat_add_one room]
  exact ⟨x_setX_self _ ha _, sp_after, isWritten_setX_self _ ha (s.byteAt s.sp.toNat),
    isWritten_setX_of_isWritten _ (s.byteAt s.sp.toNat) (isWritten_sp_setX s (s.sp + 1)), rfl,
    regsKept_setX_setX s 7 _ a _ _, fun _ => rfl, rfl, rfl, rfl, rfl, rfl, rfl⟩

/-- Settles O44: CALL checks the return address, faults as its push does, or completes in the pushed state. -/
theorem callPushesTheReturnAddress : Obligations.CallPushesTheReturnAddress := by
  refine fun s a v hw => ⟨decode_row s.cfg (.call a) rfl, checksOneOperand rfl rfl s, fun ha hr => ?_⟩
  have hk : regCheck (.call a) s = none := regCheck_of_one_operand rfl rfl ha hr
  have faults (h0 : s.pc + 2 < s.cfg.memSize) := exec_push_faults hk fun _ => handlerOf_call_of_error h0
  refine ⟨fun h => faultTaken_of_raise hk (handlerOf_call_of_outside h), fun h0 => (faults h0).1,
    fun h0 => (faults h0).2, fun h0 room inside => ⟨_, exec_call hk h0 room inside, ?_⟩⟩
  have stored := congrArg BitVec.toNat (byteAt_pushed_self (fun _ => BitVec.ofNat 8 (s.pc + 2)) hw)
  exact ⟨toNat_sp_pushed_add_one _ _ (Nat.zero_lt_of_lt room), isWritten_sp_pushed _ s _,
    stored.trans (toNat_returnAddress v h0), congrArg BitVec.toNat (x_setX_sp s (s.sp - 1) a),
    regsKept_pushed _ s _, memKeptBut_pushed _ s _, rfl, rfl, rfl, rfl, rfl, rfl⟩

/-- Settles O45: RET faults as its pop does, or writes R7 alone and jumps. -/
theorem retJumpsToThePoppedByte : Obligations.RetJumpsToThePoppedByte := by
  refine ⟨fun c => decode_row c .ret rfl, fun s => ⟨fun h => ?_, fun hr => ?_⟩⟩
  · exact faultTaken_of_regCheck (regCheck_ret_of_faultsOnRead h)
  · obtain ⟨underflows, outside⟩ := exec_pop_faults (regCheck_ret hr) fun _ => handlerOf_ret_of_error
    refine ⟨underflows, outside, fun room inside => ⟨_, exec_ret (regCheck_ret hr) room inside, rfl, ?_⟩⟩
    have sp_after : ((s.setX 7 (s.sp + 1)).x 7).toNat = s.sp.toNat + 1 := by rw [sp_setX_seven, toNat_add_one room]
    exact ⟨sp_after, isWritten_sp_setX s (s.sp + 1), regsKept_setX s 7 _ _, fun _ => rfl, rfl, rfl, rfl, rfl, rfl, rfl⟩

/-- Settles O46: the POP writes back the value pushed and the SP it was pushed at. -/
theorem pushThenPopRestores : Obligations.PushThenPopRestores := by
  intro s a hw ha h7 hr room top inside
  have stored := (byteAt_pushed_self (fun s1 => s1.x a) hw).trans (x_setX_ne s h7.symm (s.sp - 1))
  refine ⟨_, _, exec_push (regCheck_of_one_operand rfl rfl ha hr) room inside,
    exec_pop_pushed _ _ hw ha (Nat.zero_lt_of_lt room) top inside, fun r _ => ?_, stored,
    memKeptBut_pushed (fun s1 => s1.x a) s s.pc, rfl, rfl, rfl, rfl, rfl, rfl, rfl⟩
  rw [x_withPc]
  by_cases hra : r = a
  · rw [hra, x_setX_self _ ha, x_setX_ne s h7.symm]
  · rw [x_setX_ne _ (Ne.symm hra)]
    by_cases hr7 : r = 7
    · rw [hr7, sp_setX_seven]
    · rw [x_setX_ne _ (Ne.symm hr7), pushed_x, x_setX_ne s (Ne.symm hr7)]

/-- Settles O47: the byte pushed, and popped into R7, is the decremented SP. -/
theorem pushThenPopOfSpLowersSp : Obligations.PushThenPopOfSpLowersSp := by
  intro s hw hr room top inside
  have readable : Readable s [7, 7] := hr.imp_right fun h => by simpa using h
  refine ⟨_, _, exec_push (regCheck_of_one_operand rfl rfl (by decide) readable) room inside,
    exec_pop_pushed _ _ hw (by decide) (by omega) top inside, ?_⟩
  rw [State.sp, x_withPc, sp_setX_seven, sp_setX_seven, toNat_sub_one (by omega)]

/-- Settles O48: the byte RET pops is the return address CALL pushed. -/
theorem callThenRetResumes : Obligations.CallThenRetResumes := by
  intro s u a v hw ha hr h0 room top inside
  refine ⟨_, exec_call (regCheck_of_one_operand rfl rfl ha hr) h0 room inside, rfl, fun hcfg hsp hbyte hru => ?_⟩
  rw [byteAt_sp_pushed _ _ hw (by omega), ← hsp] at hbyte
  have sp_called : u.sp.toNat = s.sp.toNat - 1 := hsp ▸ toNat_sp_pushed _ _ (by omega)
  have in_memory : u.sp.toNat < u.cfg.memSize := by rw [hcfg, sp_called]; exact inside
  refine ⟨_, exec_ret (regCheck_ret hru) (by omega) in_memory, ?_, ?_, rfl⟩
  · exact (congrArg BitVec.toNat hbyte).trans (toNat_returnAddress v h0)
  · rw [State.sp, x_withPc, sp_setX_seven, hsp, State.sp, x_withPc, sp_pushed, BitVec.sub_add_cancel]

end Sys2Proof.Machine
end

section
/-! SUPPORT. Faults: what the fetched bytes say of a faulting instruction, and why each cause it raises is justified. -/

namespace Sys2Proof.Machine

/-! ## Operands and exact results -/

/-- A register operand is one of the operand bytes (40_fetch_decode_execute.md R112). -/
theorem mem_operands_of_mem_regOperands {i : Instr} {r : Byte} (h : r ∈ regOperands i) : r ∈ i.operands := by
  cases i with
  | ldi a v => exact List.mem_cons.2 (.inl (List.mem_singleton.1 h))
  | _ => exact h

/-- An instruction reads its register operands and R7 only (40_fetch_decode_execute.md R112). -/
theorem eq_seven_or_mem_regOperands_of_mem_readRegs {i : Instr} {r : Byte} (h : r ∈ readRegs i) :
    r = 7 ∨ r ∈ regOperands i := by
  cases i with
  | ldi a v => cases h
  | ret => exact .inl (List.mem_singleton.1 h)
  | pop a => exact .inl (List.mem_singleton.1 h)
  | call a => exact List.mem_cons.1 h
  | push a => exact List.mem_cons.1 h
  | _ => exact .inr h

/-- The five instructions that fit an exact result (41_alu.md R131). -/
theorem operation_mem_of_exactResult {s : State} {i : Instr} {v : Int} (h : exactResult s i = some v) :
    i.operation ∈ [.add, .sub, .mul, .inc, .dec] := by
  cases i with
  | add | sub | mul | inc | dec => simp [Instr.operation]
  | _ => cases h

/-! ## The fetched instruction -/

/-- The fetched instruction is its operation on the bytes after the opcode: it ignores those it does not declare
(40_fetch_decode_execute.md R114). -/
theorem FetchesAs.instr_eq {s : State} {o : Operation} {a b : Byte} (h : FetchesAs s o a b) (v : s.cfg.Valid) :
    o.instr a b = o.instr (s.byteAt (s.pc + 1)) (s.byteAt (s.pc + 2)) := by
  have hn := opcount_of_dispatch v h.opcode
  exact instr_ignores o a b _ _ (fun h1 => (h.operandA (hn ▸ h1)).2) fun h2 => (h.operandB (hn ▸ h2)).2

/-- A register operand of the fetched instruction is a byte after the opcode (30_encoding.md R71, R72). -/
theorem FetchesAs.eq_byteAt_of_mem_regOperands {s : State} {o : Operation} {a b r : Byte} (h : FetchesAs s o a b)
    (v : s.cfg.Valid) (hr : r ∈ regOperands (o.instr a b)) : r = s.byteAt (s.pc + 1) ∨ r = s.byteAt (s.pc + 2) := by
  rw [h.instr_eq v] at hr
  have hmem := mem_operands_of_mem_regOperands hr
  rw [Operation.operands_instr] at hmem
  simpa using List.mem_of_mem_take hmem

/-- The divisor's register byte of a fetched DIV or MOD is the second byte after the opcode (41_alu.md R142, R143). -/
theorem FetchesAs.divisor_eq {s : State} {o : Operation} {a b x y : Byte} (h : FetchesAs s o a b) (v : s.cfg.Valid)
    (hi : o.instr a b = .div x y ∨ o.instr a b = .mod x y) : y = s.byteAt (s.pc + 2) := by
  rw [h.instr_eq v] at hi
  rcases hi with hi | hi
  all_goals
    obtain rfl := (Operation.operation_instr o _ _).symm.trans (congrArg Instr.operation hi)
    cases hi
    rfl

/-! ## Justified causes -/

/-- Fault entry changes nothing that justifies a cause (60_exceptions.md R212). -/
theorem justified_takeFault {s : State} {c d : FaultCause} : Justified (s.takeFault c) d ↔ Justified s d := by
  cases d <;> rfl

/-- A justified fault, once taken, is recorded truthfully (60_exceptions.md R212). -/
theorem recordTruthful_takeFault {s : State} {c : FaultCause} (h : Justified s c) : RecordTruthful (s.takeFault c) := by
  refine ⟨fun hr => (nomatch hr), fun r hr => ?_⟩
  obtain rfl := Option.some.inj hr
  exact ⟨rfl, justified_takeFault.2 h⟩

/-- Each cause the fetched instruction raises is justified where it is raised (60_exceptions.md R203-R209, R211). -/
theorem FetchesAs.justified_of_raises {s : State} {o : Operation} {a b : Byte} {c : FaultCause} (hf : FetchesAs s o a b)
    (v : s.cfg.Valid) (hir : s.ir = s.byteAt s.pc) (hi : InstrAt s (o.instr a b)) (hc : Raises s (o.instr a b) c) :
    Justified s c := by
  have hd : dispatch s.cfg s.ir = some o := hir ▸ hf.opcode
  have fetched : Fetched s := ⟨hf.inside, hir, by simp [hd]⟩
  have opcode {ops : List Byte} {os : List Operation}
      (rows : os.map (fun o => (opcodeTable.find? (fun row => row.2 == o)).map Prod.fst) = ops.map some)
      (ho : (o.instr a b).operation ∈ os) : s.ir ∈ ops :=
    opcode_mem_of_operation_mem hd rows (o.operation_instr a b ▸ ho)
  generalize hj : o.instr a b = j at hi hc opcode
  cases hc with
  | index _ r before after hr first h8 =>
    have hmem : r ∈ regOperands (o.instr a b) := by simp [hj, hr]
    exact ⟨h8, hf.eq_byteAt_of_mem_regOperands v hmem, j, before, after, hi, hr, first⟩
  | unwritten _ r before after ok hr first h =>
    have hmem : r = 7 ∨ r ∈ regOperands j := eq_seven_or_mem_regOperands_of_mem_readRegs (by simp [hr])
    refine ⟨?_, h, j, before, after, hi, ok, hr, first⟩
    rcases hmem with rfl | hmem
    · decide
    · exact ok r hmem
  | divisor _ x y hdiv hy h0 =>
    have hop : j.operation ∈ [.div, .mod] := by rcases hdiv with rfl | rfl <;> simp [Instr.operation]
    refine ⟨opcode rfl hop, hf.divisor_eq v (hj ▸ hdiv), hy, h0, x, ?_⟩
    rcases hdiv with rfl | rfl
    · exact .inl hi
    · exact .inr hi
  | overflow _ r hr hp hv => exact ⟨hp, hv, opcode rfl (operation_mem_of_exactResult hr), j, hi, hr⟩
  | returnAddress x h =>
    have hop : s.ir = 0x48 := List.mem_singleton.1 (opcode (os := [.call]) rfl (by simp [Instr.operation]))
    have declared : 1 ≤ opcount (s.byteAt s.pc) := by rw [← hir, hop]; decide
    exact ⟨h, .inr ⟨fetched, .inr (.inl ⟨rfl, (hf.operandA declared).1, .inr hop⟩)⟩⟩
  | pushLimit _ ho h => exact ⟨opcode rfl ho, rfl, h⟩
  | pushAddress _ ho room h => exact ⟨h, .inr ⟨fetched, .inr (.inr (.inl ⟨rfl, room, opcode rfl ho⟩))⟩⟩
  | popLimit _ ho h => exact ⟨opcode rfl ho, rfl, h⟩
  | popAddress _ ho room h => exact ⟨h, .inr ⟨fetched, .inr (.inr (.inr ⟨rfl, room, opcode rfl ho⟩))⟩⟩

end Sys2Proof.Machine
end

section
/-! PROOFS. The statements about faults. -/

namespace Sys2Proof.Machine

/-- Settles O18: each stage's faults are justified where they are taken, and a completed effect leaves the record
empty. -/
theorem stepKeepsTheRecordTruthful : Obligations.StepKeepsTheRecordTruthful := by
  intro s t v truthful hs
  rcases step_inv hs with ⟨-, rfl⟩ | ⟨-, hpc, rfl⟩ | ⟨-, hpc, c, rfl, hc⟩ |
    ⟨hr, hpc, o, a, b, ho, hA, hB, hi, ⟨c, hc, rfl⟩ | ⟨he, -⟩⟩
  · exact truthful
  · exact recordTruthful_takeFault ⟨hpc, .inl rfl⟩
  · refine recordTruthful_takeFault ?_
    rcases hc with ⟨hd, rfl⟩ | ⟨hd, ⟨hn, hout, rfl⟩ | ⟨hn, hin, hout, rfl⟩⟩
    · exact ⟨hpc, rfl, rfl, hd⟩
    · exact ⟨hout, .inr ⟨⟨hpc, rfl, hd⟩, .inl ⟨rfl, hn⟩⟩⟩
    · exact ⟨hout, .inr ⟨⟨hpc, rfl, hd⟩, .inr (.inl ⟨rfl, hin, .inl hn⟩)⟩⟩
  · have hf : FetchesAs (s.latchIR (s.byteAt s.pc)) o a b := ⟨hpc, ho, hA, hB⟩
    exact recordTruthful_takeFault (hf.justified_of_raises v rfl hi hc)
  · exact recordTruthful_of_no_fault ((effect_fault he).trans (truthful.1 hr))

/-- Settles O13, by induction on the number of step requests: each step has its next state. -/
theorem everyRunHasItsState : Obligations.EveryRunHasItsState := by
  intro k
  induction k with
  | zero => exact fun s => ⟨s, reaches_zero.2 rfl⟩
  | succ k ih =>
    intro s
    obtain ⟨u, hu⟩ := step_total s
    obtain ⟨t, ht⟩ := ih u
    exact ⟨t, (reaches_succ hu).2 ht⟩

end Sys2Proof.Machine
end

section
/-! SUPPORT. A run in two parts, how a run ends, and the registers after reset. -/

namespace Sys2Proof.Machine

/-! ## Runs and their ends -/

/-- A run goes on from any state it reaches. -/
theorem reaches_add {k n : Nat} {s t u : State} (h : Reaches k s t) : Reaches (k + n) s u ↔ Reaches n t u := by
  induction k generalizing s with
  | zero =>
    obtain rfl := reaches_zero.1 h
    rw [Nat.zero_add]
  | succ k ih =>
    obtain ⟨w, hw⟩ := step_total s
    rw [Nat.succ_add, reaches_succ hw]
    exact ih ((reaches_succ hw).1 h)

/-- HALTED and FAULTED are the run states beside RUNNING (10_state.md R36). -/
theorem finished_or_failed_iff (s : State) : Finished s ∨ Failed s ↔ s.run ≠ .running := by
  unfold Finished Failed
  cases s.run <;> decide

/-- A hang is a run that reaches no stopped state: each number of steps has exactly one state. -/
theorem hang_iff (s : State) : Hang s ↔ ∀ k t, Reaches k s t → t.run = .running := by
  constructor
  · intro hang k t ht
    obtain ⟨u, hu, hrun⟩ := hang k
    rwa [reaches_unique ht hu]
  · intro h k
    obtain ⟨t, ht⟩ := everyRunHasItsState k s
    exact ⟨t, ht, h k t ht⟩

/-! ## The registers after reset (10_state.md R47) -/

/-- A register byte of R0-R6 reads the draw. -/
theorem x_coreReset (d : ResetDraw) (s : State) {r : Byte} (h : r.toNat < 7) :
    (s.coreReset d).x r = d.regs[r.toNat] := by
  simp [State.x, State.coreReset, Vector.getElem?_push, h, Nat.ne_of_lt h]

theorem sp_coreReset (d : ResetDraw) (s : State) : (s.coreReset d).sp = 0xF4 := by
  simp [State.x, State.coreReset]

/-- Of all register bytes, only SP's counts as written. -/
theorem isWritten_coreReset (d : ResetDraw) (s : State) (r : Byte) : (s.coreReset d).isWritten r = decide (r = 7) := by
  revert r
  change ∀ r : Byte, (#v[false, false, false, false, false, false, false, true])[r.toNat]?.getD false = decide (r = 7)
  decide

end Sys2Proof.Machine
end

section
/-! PROOFS. The statements about reset and the ends of a run. -/

namespace Sys2Proof.Machine

/-- Settles O60: a run that is no hang reaches a stopped state, and a stopped state reaches only itself. -/
theorem everyRunEndsOrHangs : Obligations.EveryRunEndsOrHangs := by
  intro s
  simp only [finished_or_failed_iff, hang_iff]
  refine ⟨?_, fun k t ht stopped hang => stopped (hang k t ht), fun k t n u ht stopped hu => ?_⟩
  · by_contra! h
    obtain ⟨⟨k, t, ht, stopped⟩, running⟩ := h
    exact stopped (running k t ht)
  · exact reaches_unique ((reaches_add ht).1 hu) (reaches_stopped stopped n)

/-- Settles O52: the registers are read from the draw below SP, and a stopped core's step answers the same state. -/
theorem resetSetsTheCoreState : Obligations.ResetSetsTheCoreState := by
  intro d s
  refine ⟨sp_coreReset d s, rfl, fun r h => ?_, isWritten_coreReset d s 7, fun k => ?_, rfl, rfl, rfl, rfl, rfl, rfl,
    step_stopped⟩
  · have ne : r ≠ 7 := fun e => by simp [e] at h
    exact (isWritten_coreReset d s r).trans (decide_eq_false ne)
  · have hk : (BitVec.ofNat 8 k).toNat = k := by simp; omega
    simp [x_coreReset, hk]

end Sys2Proof.Machine
end
